-- ==== Sys2Proof/Word.lean ====
section
/-! DEFINITION. The word types of the core (00_scope.md rules R6 and R7): every value is unsigned. -/

namespace Sys2Proof

/-- A byte: a general register, a timer, a memory cell, the immediate `NN`. -/
abbrev Byte := BitVec 8

/-- Sixteen bits: an opcode, `PC`, `I`, a stack entry. -/
abbrev Word := BitVec 16

/-- One four-bit field of an opcode (30_encoding.md rule R61). -/
abbrev Nibble := BitVec 4

/-- The index of a general register, always a four-bit field (10_state.md rule R11). -/
abbrev RegIdx := BitVec 4

/-- The twelve-bit immediate `NNN` (30_encoding.md rule R62). -/
abbrev Addr12 := BitVec 12

end Sys2Proof
end

