-- ==== Sys2Proof/Syntax.lean ====
section
/-! DEFINITION. The instructions of the core: one constructor for each row of the decode map
(30_encoding.md rule R64), in the map's order, with the operand fields of rule R62. Field names:
`x`, `y` the register fields, `n`, `nn`, `nnn` the immediates of 4, 8 and 12 bits. -/

namespace Sys2Proof

/-- The 35 instruction forms (30_encoding.md rule R64). -/
inductive Instr where
  /-- 0000 (rule R80). -/
  | nop
  /-- 00E0 (rule R130). -/
  | cls
  /-- 00EE (rule R81). -/
  | ret
  /-- 1NNN (rule R82). -/
  | jp (nnn : Addr12)
  /-- 2NNN (rule R83). -/
  | call (nnn : Addr12)
  /-- 3XNN (rule R85). -/
  | seImm (x : RegIdx) (nn : Byte)
  /-- 4XNN (rule R86). -/
  | sneImm (x : RegIdx) (nn : Byte)
  /-- 5XY0 (rule R87). -/
  | seReg (x y : RegIdx)
  /-- 6XNN (rule R100). -/
  | ldImm (x : RegIdx) (nn : Byte)
  /-- 7XNN (rule R101). -/
  | addImm (x : RegIdx) (nn : Byte)
  /-- 8XY0 (rule R102). -/
  | ldReg (x y : RegIdx)
  /-- 8XY1 (rule R103). -/
  | or (x y : RegIdx)
  /-- 8XY2 (rule R104). -/
  | and (x y : RegIdx)
  /-- 8XY3 (rule R105). -/
  | xor (x y : RegIdx)
  /-- 8XY4 (rule R106). -/
  | addReg (x y : RegIdx)
  /-- 8XY5 (rule R107). -/
  | sub (x y : RegIdx)
  /-- 8XY6 (rule R108); `y` is decoded and then ignored (rule R68). -/
  | shr (x y : RegIdx)
  /-- 8XY7 (rule R109). -/
  | subn (x y : RegIdx)
  /-- 8XYE (rule R110); `y` is decoded and then ignored (rule R68). -/
  | shl (x y : RegIdx)
  /-- 9XY0 (rule R88). -/
  | sneReg (x y : RegIdx)
  /-- ANNN (rule R120). -/
  | ldI (nnn : Addr12)
  /-- BNNN (rule R84). -/
  | jpV0 (nnn : Addr12)
  /-- CXNN (rule R111). -/
  | rnd (x : RegIdx) (nn : Byte)
  /-- DXYN (rule R131). -/
  | drw (x y : RegIdx) (n : Nibble)
  /-- EX9E (rule R140). -/
  | skp (x : RegIdx)
  /-- EXA1 (rule R141). -/
  | sknp (x : RegIdx)
  /-- FX07 (rule R143). -/
  | ldVxDT (x : RegIdx)
  /-- FX0A (rule R142). -/
  | ldVxK (x : RegIdx)
  /-- FX15 (rule R144). -/
  | ldDTVx (x : RegIdx)
  /-- FX18 (rule R145). -/
  | ldSTVx (x : RegIdx)
  /-- FX1E (rule R121). -/
  | addI (x : RegIdx)
  /-- FX29 (rule R122). -/
  | ldF (x : RegIdx)
  /-- FX33 (rule R123). -/
  | ldB (x : RegIdx)
  /-- FX55 (rule R124). -/
  | ldMemVx (x : RegIdx)
  /-- FX65 (rule R125). -/
  | ldVxMem (x : RegIdx)
deriving DecidableEq, Repr

end Sys2Proof
end

