-- ==== Sys2Proof/Decode.lean ====
section
/-! DEFINITION. The decoder (30_encoding.md rules R61, R62 and R66), total on any bytes and rejecting by
name, and after it the encoder, written from the formats of rule R63. -/

namespace Sys2Proof

/-- Why the decoder gives no instruction. -/
inductive DecodeError where
  /-- The word matches no row of the decode map (30_encoding.md rule R67). -/
  | unrecognized (op : Word)
  /-- Fewer than two bytes are left, so there is no opcode (30_encoding.md rule R60). -/
  | truncated (have_ : Nat)
deriving DecidableEq, Repr

/-- `n3`, bits 15:12 (30_encoding.md rule R61). -/
def fieldFamily (op : Word) : Nibble := op.extractLsb' 12 4

/-- `X`, bits 11:8 (30_encoding.md rule R62). -/
def fieldX (op : Word) : RegIdx := op.extractLsb' 8 4

/-- `Y`, bits 7:4 (30_encoding.md rule R62). -/
def fieldY (op : Word) : RegIdx := op.extractLsb' 4 4

/-- `N`, bits 3:0 (30_encoding.md rule R62). -/
def fieldN (op : Word) : Nibble := op.extractLsb' 0 4

/-- `NN`, bits 7:0 (30_encoding.md rule R62). -/
def fieldNN (op : Word) : Byte := op.extractLsb' 0 8

/-- `NNN`, bits 11:0 (30_encoding.md rule R62). -/
def fieldNNN (op : Word) : Addr12 := op.extractLsb' 0 12

/-- Family 0: three fixed words and no other (30_encoding.md rules R66 and R67). -/
def decodeFixed (op : Word) : Option Instr :=
  if op = 0x0000#16 then some .nop
  else if op = 0x00E0#16 then some .cls
  else if op = 0x00EE#16 then some .ret
  else none

/-- Families 5 and 9: the low field must be 0 (30_encoding.md rules R66 and R68). -/
def decodeLowZero (i : Instr) (op : Word) : Option Instr :=
  if fieldN op = 0#4 then some i else none

/-- Family 8: nine function values (30_encoding.md rule R66). -/
def decodeAlu (op : Word) : Option Instr :=
  match fieldN op with
  | 0x0#4 => some (.ldReg (fieldX op) (fieldY op))
  | 0x1#4 => some (.or (fieldX op) (fieldY op))
  | 0x2#4 => some (.and (fieldX op) (fieldY op))
  | 0x3#4 => some (.xor (fieldX op) (fieldY op))
  | 0x4#4 => some (.addReg (fieldX op) (fieldY op))
  | 0x5#4 => some (.sub (fieldX op) (fieldY op))
  | 0x6#4 => some (.shr (fieldX op) (fieldY op))
  | 0x7#4 => some (.subn (fieldX op) (fieldY op))
  | 0xE#4 => some (.shl (fieldX op) (fieldY op))
  | _ => none

/-- Family E: two function bytes (30_encoding.md rule R66). -/
def decodeKey (op : Word) : Option Instr :=
  match fieldNN op with
  | 0x9E#8 => some (.skp (fieldX op))
  | 0xA1#8 => some (.sknp (fieldX op))
  | _ => none

/-- Family F: nine function bytes (30_encoding.md rule R66). -/
def decodeMisc (op : Word) : Option Instr :=
  match fieldNN op with
  | 0x07#8 => some (.ldVxDT (fieldX op))
  | 0x0A#8 => some (.ldVxK (fieldX op))
  | 0x15#8 => some (.ldDTVx (fieldX op))
  | 0x18#8 => some (.ldSTVx (fieldX op))
  | 0x1E#8 => some (.addI (fieldX op))
  | 0x29#8 => some (.ldF (fieldX op))
  | 0x33#8 => some (.ldB (fieldX op))
  | 0x55#8 => some (.ldMemVx (fieldX op))
  | 0x65#8 => some (.ldVxMem (fieldX op))
  | _ => none

/-- The decode procedure of 30_encoding.md rule R66, by leading field; `none` is its verdict
"Unrecognized". The sixteen values of the field are all named, so the last arm is never taken. -/
def decode? (op : Word) : Option Instr :=
  match fieldFamily op with
  | 0x0#4 => decodeFixed op
  | 0x1#4 => some (.jp (fieldNNN op))
  | 0x2#4 => some (.call (fieldNNN op))
  | 0x3#4 => some (.seImm (fieldX op) (fieldNN op))
  | 0x4#4 => some (.sneImm (fieldX op) (fieldNN op))
  | 0x5#4 => decodeLowZero (.seReg (fieldX op) (fieldY op)) op
  | 0x6#4 => some (.ldImm (fieldX op) (fieldNN op))
  | 0x7#4 => some (.addImm (fieldX op) (fieldNN op))
  | 0x8#4 => decodeAlu op
  | 0x9#4 => decodeLowZero (.sneReg (fieldX op) (fieldY op)) op
  | 0xA#4 => some (.ldI (fieldNNN op))
  | 0xB#4 => some (.jpV0 (fieldNNN op))
  | 0xC#4 => some (.rnd (fieldX op) (fieldNN op))
  | 0xD#4 => some (.drw (fieldX op) (fieldY op) (fieldN op))
  | 0xE#4 => decodeKey op
  | 0xF#4 => decodeMisc op
  | _ => none

/-- Decoding, a pure total function of the 16 opcode bits: one instruction, or the word rejected by
name (30_encoding.md rules R66 and R67). -/
def decode (op : Word) : Except DecodeError Instr :=
  match decode? op with
  | some i => .ok i
  | none => .error (.unrecognized op)

/-- The opcode of two bytes in the order of their addresses: the first is the high byte
(20_memory.md rule R40). -/
def opcodeOf (hi lo : Byte) : Word := hi ++ lo

/-- Decode the first instruction of a byte sequence and give the rest: always two bytes
(30_encoding.md rules R60 and R69). -/
def decodeBytes : List Byte → Except DecodeError (Instr × List Byte)
  | hi :: lo :: rest =>
    match decode (opcodeOf hi lo) with
    | .ok i => .ok (i, rest)
    | .error e => .error e
  | bs => .error (.truncated bs.length)

/-- Format A: opcode, `NNN` (30_encoding.md rule R63). -/
def formatA (op : Nibble) (nnn : Addr12) : Word := op ++ nnn

/-- Formats I and F: opcode, `X`, and a byte that is `NN` or the function (30_encoding.md rule R63). -/
def formatI (op : Nibble) (x : RegIdx) (nn : Byte) : Word := (op ++ x : Byte) ++ nn

/-- Formats R and D: opcode, `X`, `Y`, and a nibble that is the function or `N`
(30_encoding.md rule R63). -/
def formatR (op : Nibble) (x y : RegIdx) (n : Nibble) : Word := (op ++ x : Byte) ++ (y ++ n : Byte)

/-- The word of an instruction (30_encoding.md rules R63 and R64). -/
def encode : Instr → Word
  | .nop => 0x0000
  | .cls => 0x00E0
  | .ret => 0x00EE
  | .jp nnn => formatA 0x1 nnn
  | .call nnn => formatA 0x2 nnn
  | .seImm x nn => formatI 0x3 x nn
  | .sneImm x nn => formatI 0x4 x nn
  | .seReg x y => formatR 0x5 x y 0x0
  | .ldImm x nn => formatI 0x6 x nn
  | .addImm x nn => formatI 0x7 x nn
  | .ldReg x y => formatR 0x8 x y 0x0
  | .or x y => formatR 0x8 x y 0x1
  | .and x y => formatR 0x8 x y 0x2
  | .xor x y => formatR 0x8 x y 0x3
  | .addReg x y => formatR 0x8 x y 0x4
  | .sub x y => formatR 0x8 x y 0x5
  | .shr x y => formatR 0x8 x y 0x6
  | .subn x y => formatR 0x8 x y 0x7
  | .shl x y => formatR 0x8 x y 0xE
  | .sneReg x y => formatR 0x9 x y 0x0
  | .ldI nnn => formatA 0xA nnn
  | .jpV0 nnn => formatA 0xB nnn
  | .rnd x nn => formatI 0xC x nn
  | .drw x y n => formatR 0xD x y n
  | .skp x => formatI 0xE x 0x9E
  | .sknp x => formatI 0xE x 0xA1
  | .ldVxDT x => formatI 0xF x 0x07
  | .ldVxK x => formatI 0xF x 0x0A
  | .ldDTVx x => formatI 0xF x 0x15
  | .ldSTVx x => formatI 0xF x 0x18
  | .addI x => formatI 0xF x 0x1E
  | .ldF x => formatI 0xF x 0x29
  | .ldB x => formatI 0xF x 0x33
  | .ldMemVx x => formatI 0xF x 0x55
  | .ldVxMem x => formatI 0xF x 0x65

/-- The two bytes of a word as the hardware stores them, the high byte at the lower address
(20_memory.md rule R40). -/
def wordBytes (op : Word) : List Byte := [op.extractLsb' 8 8, op.extractLsb' 0 8]

/-- The word of an instruction whose `nbits` bits are `w`, numbered as spec/opcode_table.json numbers
them: every instruction is one 16-bit word, and a bit at `nbits` or above is 0. -/
def tableWord (nbits w : Nat) : Word := BitVec.ofNat 16 (w % 2 ^ nbits)

/-- What the decoder reads from the bytes of `tableWord nbits w`, laid out as the hardware stores
them. -/
def decodeTableWord (nbits w : Nat) : Option Instr :=
  match decodeBytes (wordBytes (tableWord nbits w)) with
  | .ok (i, _) => some i
  | .error _ => none

end Sys2Proof
end

