-- ==== Sys2Proof/Config.lean ====
section
/-! DEFINITION. The parameters of the core (00_scope.md rule R5) and its one free value. `GLYPH_TABLE` stands
in Machine/Glyphs.lean; `STEPS_PER_FRAME` and `TICK_HZ` are no parameters of the core. The counts and sizes
are reducible, so that the types of `State` that they size are the vectors of those numbers; the widths are
the widths of `Byte` and `Word`, which Laws/Config.lean shows. -/

namespace Sys2Proof

/-- `MEM_SIZE`, the number of bytes of memory (00_scope.md rule R5, decision D1). -/
def Config.memSize : Nat := 4096

/-- `BASE`, where a program image starts and where `PC` starts (00_scope.md rule R5, decision D2). -/
def Config.base : Nat := 0x200

/-- `INSN_WIDTH`, the number of bytes of an instruction (00_scope.md rule R5, 30_encoding.md rule R60). -/
def Config.insnWidth : Nat := 2

/-- `NREGS`, the number of general registers (00_scope.md rule R5, 10_state.md rule R11). -/
abbrev Config.numRegs : Nat := 16

/-- `REG_WIDTH`, the bits of a general register (00_scope.md rule R5, 10_state.md rule R11). -/
abbrev Config.regWidth : Nat := 8

/-- `PC_WIDTH`, the bits of `PC` and of a stack entry (00_scope.md rule R5, 10_state.md rules R16 and R22). -/
abbrev Config.pcWidth : Nat := 16

/-- `I_WIDTH`, the bits of `I` (00_scope.md rule R5, 10_state.md rule R19). -/
abbrev Config.indexWidth : Nat := 16

/-- `STACK_DEPTH`, the number of stack entries (00_scope.md rule R5, decision D8). -/
abbrev Config.stackDepth : Nat := 16

/-- `NKEYS`, the number of key latches (00_scope.md rule R5, 10_state.md rule R23). -/
abbrev Config.numKeys : Nat := 16

/-- `TIMER_WIDTH`, the bits of a timer (00_scope.md rule R5, 10_state.md rules R20 and R21). -/
abbrev Config.timerWidth : Nat := 8

/-- `DISP_W`, the columns of the display (00_scope.md rule R5, 10_state.md rule R24). -/
abbrev Config.dispWidth : Nat := 64

/-- `DISP_H`, the rows of the display (00_scope.md rule R5, 10_state.md rule R24). -/
abbrev Config.dispHeight : Nat := 32

/-- `GLYPH_BASE`, the address of the glyph table (00_scope.md rule R5, 10_state.md rule R33). -/
def Config.glyphBase : Nat := 0x000

/-- `GLYPH_BYTES`, the bytes of one glyph (00_scope.md rule R5, 10_state.md rule R33). -/
def Config.glyphBytes : Nat := 5

/-- The number of glyphs, one for each hexadecimal digit (00_scope.md rule R5, `GLYPH_BYTES`). -/
def Config.glyphCount : Nat := 16

/-- `RAND`: the byte the environment supplies for the `n`-th `draw8()` (41_alu.md rule R111, decision
D24). It has no body, so nothing can be proved of its value; log entry 1. DESIGN CHOICE (form only),
safe. -/
opaque Config.freeByte (n : Nat) : Byte

end Sys2Proof
end

