-- ==== Sys2Proof/Machine/Glyphs.lean ====
section
/-! DEFINITION. The glyph table and the reset content of memory (10_state.md rules R30 and R33). They are
parameters of the core; they stand here because the bytes of the table are not established (decision
D4, log entry 4), and a test may show one wrong. -/

namespace Sys2Proof

/-- Glyphs of the digits 0 to 7 (10_state.md rule R33). -/
def Config.glyphsLow : List Byte :=
  [0xF0, 0x90, 0x90, 0x90, 0xF0] ++ [0x20, 0x60, 0x20, 0x20, 0x70] ++
  [0xF0, 0x10, 0xF0, 0x80, 0xF0] ++ [0xF0, 0x10, 0xF0, 0x10, 0xF0] ++
  [0x90, 0x90, 0xF0, 0x10, 0x10] ++ [0xF0, 0x80, 0xF0, 0x10, 0xF0] ++
  [0xF0, 0x80, 0xF0, 0x90, 0xF0] ++ [0xF0, 0x10, 0x20, 0x40, 0x40]

/-- Glyphs of the digits 8 to F (10_state.md rule R33). -/
def Config.glyphsHigh : List Byte :=
  [0xF0, 0x90, 0xF0, 0x90, 0xF0] ++ [0xF0, 0x90, 0xF0, 0x10, 0xF0] ++
  [0xF0, 0x90, 0xF0, 0x90, 0x90] ++ [0xE0, 0x90, 0xE0, 0x90, 0xE0] ++
  [0xF0, 0x80, 0x80, 0x80, 0xF0] ++ [0xE0, 0x90, 0x90, 0x90, 0xE0] ++
  [0xF0, 0x80, 0xF0, 0x80, 0xF0] ++ [0xF0, 0x80, 0xF0, 0x80, 0x80]

/-- `GLYPH_TABLE`, five bytes a digit from address 0 up (10_state.md rule R33). UNVERIFIED: the
bytes are the spec's default (decision D4), not its source's; log entry 4. -/
def Config.glyphTable : List Byte := Config.glyphsLow ++ Config.glyphsHigh

/-- The reset content of memory (10_state.md rule R30, 20_memory.md rule R45): the glyph table from
`GLYPH_BASE` up, and 0x00 everywhere else. It is what an address that the memory list does not
hold reads as; log entries 5 and 10. -/
def Config.resetByte (a : Nat) : Byte :=
  if Config.glyphBase ≤ a then Config.glyphTable.getD (a - Config.glyphBase) 0 else 0

end Sys2Proof
end

