-- ==== Sys2Proof/Machine/State.lean ====
section
/-! DEFINITION. The state of the core, whole and as plain data (10_state.md rule R10), and the state
after reset (rule R30). -/

namespace Sys2Proof.Machine

/-- Why the HOST's outcome `fault` would be taken. The type has NO constructor: `STEP` is total and no
state is stuck (45_host_operations.md rule R154, 93_implementation_defined.md). A fault of the spec is a
state, not an end of the machine: its entry is described (60_exceptions.md rules R171 and R176), so the
step answers a next state with the register `FAULT` written; log entry 3. -/
inductive Fault
deriving DecidableEq, Repr

/-- Why an instruction would have no meaning. -/
inductive Refusal where
  /-- Raised by an arm of `exec` whose instruction has no meaning yet; no arm does. Safe. -/
  | notModelled (mnemonic : String)
deriving DecidableEq, Repr

/-- What a step answers. -/
abbrev Out (σ : Type) := Host.Outcome σ Fault Refusal

/-- The kind of a fault with the information it records (60_exceptions.md rule R170, 10_state.md rule
R26). -/
inductive FaultCause where
  /-- Raised by `STEP` at decode: the opcode (rule R172). -/
  | decodeFailure (op : Word)
  /-- Raised by `RET` with no live entry (rule R173). -/
  | stackUnderflow
  /-- Raised by a fetch, `DRW`, `LD B`, `LD [I],VX`, `LD VX,[I]` and `LOAD`: the first out-of-range
  address, an unbounded natural (rule R174). -/
  | memoryBounds (addr : Nat)
  /-- Raised by `CALL` with 16 live entries (rule R175). -/
  | stackOverflow
  /-- Raised by `SKP` and `SKNP`: the value of `V[X]` (rule R177). -/
  | keyIndexRange (key : Byte)
deriving DecidableEq, Repr

/-- The record of the register `FAULT` (10_state.md rule R26). -/
structure FaultRecord where
  /-- `kind` and `info`. -/
  cause : FaultCause
  /-- `at`: the address of the instruction whose `STEP` faulted, absent for a fault raised by `LOAD`. -/
  pcAt : Option Word
deriving DecidableEq, Repr

/-- Memory as (address, byte) pairs in one canonical form, addresses strictly rising and no entry equal
to the reset content of its address; log entry 10. -/
abbrev Memory := List Host.Cell

/-- The display, 32 rows of 64 cells (10_state.md rule R24): row 0 is the top, column 0 the left. -/
abbrev Display := Vector (Vector Bool Config.dispWidth) Config.dispHeight

/-- The whole state of the core (10_state.md rule R10), and `draws`, the model's own. -/
structure State where
  /-- `PC` (rules R16 to R18). -/
  pc : Word
  /-- `MEM` (rule R25). -/
  mem : Memory
  /-- `V[0]` to `V[15]`; `V[15]` is the flag register `VF` (rules R11 and R14). -/
  v : Vector Byte Config.numRegs
  /-- `I`, the index register (rule R19). -/
  i : Word
  /-- `STACK[0]` to `STACK[15]`; entries at `sp` and above are dead (rule R22). -/
  stack : Vector Word Config.stackDepth
  /-- `SP`, the count of live entries, 0 to 16 (rule R22). -/
  sp : Fin (Config.stackDepth + 1)
  /-- `KEY[0]` to `KEY[15]`, true when pressed (rule R23). -/
  key : Vector Bool Config.numKeys
  /-- `DT`, the delay timer (rule R20). -/
  dt : Byte
  /-- `ST`, the sound timer (rule R21). -/
  st : Byte
  /-- `DISP` (rule R24). -/
  disp : Display
  /-- `FAULT` (rule R26). -/
  fault : Option FaultRecord
  /-- The MODEL's own: how many `draw8()` bytes the environment has supplied (41_alu.md rule R111);
  log entries 1 and 2. -/
  draws : Nat
deriving DecidableEq, Repr

/-- The state after `INIT` and after `RESET` (10_state.md rule R30, 70_reset_and_hazards.md rule R200).
Memory lists nothing: an unlisted address reads as its reset content. `draws` is no register of the
spec; its 0 is a DESIGN CHOICE, log entry 2. -/
def State.reset : State where
  pc := BitVec.ofNat Config.pcWidth Config.base
  mem := []
  v := Vector.replicate Config.numRegs 0
  i := 0
  stack := Vector.replicate Config.stackDepth 0
  sp := 0
  key := Vector.replicate Config.numKeys false
  dt := 0
  st := 0
  disp := Vector.replicate Config.dispHeight (Vector.replicate Config.dispWidth false)
  fault := none
  draws := 0

end Sys2Proof.Machine
end

