-- ==== Sys2Proof/Machine/Ops.lean ====
section
/-! DEFINITION. The named operations over memory, registers, the call stack and `FAULT`. Every
instruction and every host operation is written with these. -/

namespace Sys2Proof.Machine

/-! ## Memory (20_memory.md) -/

/-- `MEM[a]`: the listed byte, else the reset content of the address (20_memory.md rules R44, R45). -/
def Memory.read (m : Memory) (a : Nat) : Byte :=
  match m with
  | [] => Config.resetByte a
  | (b, w) :: r => if b = a then w else Memory.read r a

/-- Put an entry before the first entry of a higher address. -/
def Memory.insert (a : Nat) (b : Byte) (m : Memory) : Memory :=
  match m with
  | [] => [(a, b)]
  | (c, w) :: r => if a < c then (a, b) :: (c, w) :: r else (c, w) :: Memory.insert a b r

/-- `MEM[a] <- b`, keeping the canonical form: the old entry goes, and a new one is listed unless the
byte is the reset content of its address. -/
def Memory.write (m : Memory) (a : Nat) (b : Byte) : Memory :=
  let rest := m.filter (fun c => c.1 != a)
  if b = Config.resetByte a then rest else Memory.insert a b rest

/-- The `n` bytes from address `a` up, in ascending order (20_memory.md rules R48 and R52). -/
def Memory.readBytes (m : Memory) (a : Nat) : Nat → List Byte
  | 0 => []
  | n + 1 => Memory.read m a :: Memory.readBytes m (a + 1) n

/-- Write bytes from address `a` up, in ascending order (20_memory.md rules R48 and R52). -/
def Memory.writeBytes (m : Memory) (a : Nat) (bs : List Byte) : Memory :=
  match bs with
  | [] => m
  | b :: rest => Memory.writeBytes (Memory.write m a b) (a + 1) rest

/-- Every listed address is at least `lo`, below `MEM_SIZE`, above the one before it, and holds another
byte than its reset content. -/
def Memory.wfFrom (lo : Nat) (m : Memory) : Bool :=
  match m with
  | [] => true
  | (a, b) :: r =>
    decide (lo ≤ a) && decide (a < Config.memSize) && b != Config.resetByte a &&
      Memory.wfFrom (a + 1) r

/-- The canonical form of memory; log entry 10. -/
def Memory.wf (m : Memory) : Bool := Memory.wfFrom 0 m

/-- The bounds check of a whole range of `len` bytes from `start` up, on unbounded naturals, made before
anything changes (20_memory.md rules R41 and R53): the first out-of-range address, or `none`. A range of
no bytes accesses nothing (43_display.md rule R131, decision D30). -/
def rangeFault (start len : Nat) : Option Nat :=
  if len = 0 ∨ start + len ≤ Config.memSize then none else some (max start Config.memSize)

/-! ## Registers -/

/-- `V[x]` (10_state.md rule R11). -/
def State.readV (s : State) (x : RegIdx) : Byte := s.v[x.toNat]'(x.isLt)

/-- `V[x] <- b` (10_state.md rule R11): none of the 16 is hard-wired. -/
def State.writeV (s : State) (x : RegIdx) (b : Byte) : State :=
  { s with v := s.v.set x.toNat b x.isLt }

/-- `V[0]` to `V[n-1]`, in ascending order. -/
def State.firstRegs (s : State) (n : Nat) : List Byte := s.v.toList.take n

/-- Write bytes to the registers from `V[k]` up, in ascending order (42_index_memory.md rule R125). -/
def State.loadRegs (s : State) (k : Nat) (bs : List Byte) : State :=
  match bs with
  | [] => s
  | b :: rest => (s.writeV (BitVec.ofNat 4 k) b).loadRegs (k + 1) rest

/-- `PC <- w`. -/
def State.setPC (s : State) (w : Word) : State := { s with pc := w }

/-- The advance of the fetch, `PC <- PC + 2` mod 2^16, before the instruction executes (10_state.md rules
R17 and R18). -/
def State.advance (s : State) : State := s.setPC (s.pc + 2)

/-- A skip: `PC <- PC + 2` if the condition holds (40_control.md rule R89). -/
def State.skipIf (s : State) (c : Bool) : State := if c then s.setPC (s.pc + 2) else s

/-- The rewind by one instruction width of a waiting `LD VX, K` (44_keypad_timers.md rule R142). -/
def State.rewind (s : State) : State := s.setPC (s.pc - 2)

/-- `I <- w` (10_state.md rule R19). -/
def State.setI (s : State) (w : Word) : State := { s with i := w }

/-- `DT <- b` (10_state.md rule R20). -/
def State.setDT (s : State) (b : Byte) : State := { s with dt := b }

/-- `ST <- b` (10_state.md rule R21). -/
def State.setST (s : State) (b : Byte) : State := { s with st := b }

/-- Replace the display (10_state.md rule R24). -/
def State.setDisp (s : State) (d : Display) : State := { s with disp := d }

/-- Store bytes to memory from address `a` up; the caller has checked the range (20_memory.md rule R53). -/
def State.store (s : State) (a : Nat) (bs : List Byte) : State :=
  { s with mem := s.mem.writeBytes a bs }

/-- The byte `draw8()` gives now (41_alu.md rule R111); log entry 1. -/
def State.drawn (s : State) : Byte := Config.freeByte s.draws

/-- The draw is taken: the next one is another free byte (41_alu.md rule R111). -/
def State.tookDraw (s : State) : State := { s with draws := s.draws + 1 }

/-! ## The call stack (10_state.md rule R22) -/

/-- `STACK[SP] <- w; SP <- SP + 1`, or `none` with `STACK_DEPTH` live entries. -/
def State.push? (s : State) (w : Word) : Option State :=
  if h : s.sp.val < Config.stackDepth then
    some { s with stack := s.stack.set s.sp.val w h, sp := ⟨s.sp.val + 1, by omega⟩ }
  else none

/-- `SP <- SP - 1`, with the entry `STACK[SP]` it then names, or `none` with no live entry. The dead entry
keeps its content; log entry 8. -/
def State.pop? (s : State) : Option (Word × State) :=
  if h : 0 < s.sp.val then
    some (s.stack[s.sp.val - 1]'(by omega), { s with sp := ⟨s.sp.val - 1, by omega⟩ })
  else none

/-! ## The keypad (10_state.md rule R23) -/

/-- `KEY[k]`, or `none` for a `k` that no latch has. -/
def State.key? (s : State) (k : Nat) : Option Bool := s.key[k]?

/-- `KEY[k] <- down`; no effect for a `k` that no latch has (45_host_operations.md rule R157). -/
def State.setKey (s : State) (k : Nat) (down : Bool) : State :=
  if h : k < Config.numKeys then { s with key := s.key.set k down h } else s

/-- The least index of a pressed key (44_keypad_timers.md rule R142). -/
def State.firstPressed (s : State) : Option Nat := s.key.toList.findIdx? (fun b => b)

/-! ## Taking a fault (60_exceptions.md rules R171 and R176) -/

/-- The code of a fault kind (60_exceptions.md rule R170, decision D12). -/
def FaultCause.code : FaultCause → Nat
  | .decodeFailure _ => 1
  | .stackUnderflow => 2
  | .memoryBounds _ => 3
  | .stackOverflow => 4
  | .keyIndexRange _ => 5

/-- The recorded `info` of a fault, where there is one (60_exceptions.md rule R170). -/
def FaultCause.info : FaultCause → Option Nat
  | .decodeFailure op => some op.toNat
  | .stackUnderflow => none
  | .memoryBounds a => some a
  | .stackOverflow => none
  | .keyIndexRange k => some k.toNat

/-- `raise`: from the state at the start of the operation, only `FAULT` is written, and only if it is
`None`; the first fault stays (60_exceptions.md rule R171). -/
def State.raise (s : State) (cause : FaultCause) (pcAt : Option Word) : State :=
  match s.fault with
  | none => { s with fault := some ⟨cause, pcAt⟩ }
  | some _ => s

/-- A `STEP` ends in a fault: `s` is the state on entry, so `at` is its `PC` and everything else is as it
was (60_exceptions.md rule R176). There is no handler and no return: only `INIT` and `RESET` leave the
fault state (rule R180). -/
def faultStep (cause : FaultCause) (s : State) : Out State := .next (s.raise cause (some s.pc))

/-- Run `body` if the whole range is in memory, else fault (20_memory.md rule R53). -/
def withRange (start len : Nat) (s : State) (body : Out State) : Out State :=
  match rangeFault start len with
  | none => body
  | some a => faultStep (.memoryBounds a) s

end Sys2Proof.Machine
end

