-- ==== Sys2Proof/Machine/Operands.lean ====
section
/-! DEFINITION. The operand forms: immediates (30_encoding.md rule R65), register operands, and the one
addressing mode of data, base `I` plus a small offset on unbounded naturals (42_index_memory.md rule
R126). -/

namespace Sys2Proof.Machine

/-- `zext_16`: every widening is a zero-extension (00_scope.md rule R7). -/
def zext16 {n : Nat} (b : BitVec n) : Word := b.setWidth 16

/-- The base address of a data access, an unbounded natural (20_memory.md rule R41). -/
def State.base (s : State) : Nat := s.i.toNat

/-- The number of registers and bytes that `LD [I], VX` and `LD VX, [I]` move, `X + 1`
(42_index_memory.md rules R124 and R125). -/
def bulkCount (x : RegIdx) : Nat := x.toNat + 1

/-- The three decimal digits of a byte, hundreds first (42_index_memory.md rule R123). -/
def bcdDigits (b : Byte) : List Byte := [b / 100, (b / 10) % 10, b % 10]

/-- The address of the glyph of a digit: `GLYPH_BYTES` bytes a glyph from `GLYPH_BASE` up, the whole byte
multiplied (42_index_memory.md rule R122, where the base is 0). -/
def glyphAddress (b : Byte) : Word :=
  BitVec.ofNat Config.indexWidth (Config.glyphBase + Config.glyphBytes * b.toNat)

/-- The register a flag goes to, `VF` (10_state.md rule R14). -/
def flagReg : RegIdx := 15

end Sys2Proof.Machine
end

