-- ==== Sys2Proof/Machine/Flags.lean ====
section
/-! DEFINITION. Every flag computation (10_state.md rule R14), and the one operation that writes a result
and then the flag (rule R15). -/

namespace Sys2Proof.Machine

/-- The value a flag has in `VF`: exactly 0 or 1 in eight bits (10_state.md rule R14). -/
def flagByte (c : Bool) : Byte := if c then 1 else 0

/-- Carry of an add: the exact sum is above 255 (41_alu.md rule R106). -/
def carry (a b : Byte) : Bool := decide (255 < a.toNat + b.toNat)

/-- No borrow of a subtract: the minuend is at least the subtrahend (41_alu.md rules R107 and R109). -/
def noBorrow (minuend subtrahend : Byte) : Bool := decide (subtrahend.toNat ≤ minuend.toNat)

/-- The bit a right shift by one moves out, bit 0 (41_alu.md rule R108). -/
def outRight (a : Byte) : Bool := a.getLsbD 0

/-- The bit a left shift by one moves out, bit 7 (41_alu.md rule R110). -/
def outLeft (a : Byte) : Bool := a.getLsbD 7

/-- Write the result to `V[x]` and then the flag to `VF`, last: with `x` = 15 the flag overwrites the
result (10_state.md rule R15). -/
def State.writeFlagged (s : State) (x : RegIdx) (result : Byte) (flag : Bool) : State :=
  (s.writeV x result).writeV flagReg (flagByte flag)

end Sys2Proof.Machine
end

