-- ==== Sys2Proof/Machine/Alu.lean ====
section
/-! DEFINITION. Register load, arithmetic, logic, shift and random instructions (41_alu.md). Operands are
read from the state on entry, then `V[X]` is written, then `VF` (rule R112). -/

namespace Sys2Proof.Machine

/-- `LD VX, NN` (41_alu.md rule R100). -/
def execLdImm (x : RegIdx) (nn : Byte) (s : State) : Out State := .next (s.advance.writeV x nn)

/-- `ADD VX, NN` (41_alu.md rule R101): wraps, and writes no flag. -/
def execAddImm (x : RegIdx) (nn : Byte) (s : State) : Out State :=
  .next (s.advance.writeV x (s.readV x + nn))

/-- `LD VX, VY` (41_alu.md rule R102). -/
def execLdReg (x y : RegIdx) (s : State) : Out State := .next (s.advance.writeV x (s.readV y))

/-- `OR VX, VY` (41_alu.md rule R103): writes no flag. -/
def execOr (x y : RegIdx) (s : State) : Out State :=
  .next (s.advance.writeV x (s.readV x ||| s.readV y))

/-- `AND VX, VY` (41_alu.md rule R104): writes no flag. -/
def execAnd (x y : RegIdx) (s : State) : Out State :=
  .next (s.advance.writeV x (s.readV x &&& s.readV y))

/-- `XOR VX, VY` (41_alu.md rule R105): writes no flag. -/
def execXor (x y : RegIdx) (s : State) : Out State :=
  .next (s.advance.writeV x (s.readV x ^^^ s.readV y))

/-- `ADD VX, VY` (41_alu.md rule R106). -/
def execAddReg (x y : RegIdx) (s : State) : Out State :=
  .next (s.advance.writeFlagged x (s.readV x + s.readV y) (carry (s.readV x) (s.readV y)))

/-- `SUB VX, VY` (41_alu.md rule R107). -/
def execSub (x y : RegIdx) (s : State) : Out State :=
  .next (s.advance.writeFlagged x (s.readV x - s.readV y) (noBorrow (s.readV x) (s.readV y)))

/-- `SHR VX` (41_alu.md rule R108): the second register field is ignored. -/
def execShr (x _y : RegIdx) (s : State) : Out State :=
  .next (s.advance.writeFlagged x (s.readV x >>> 1) (outRight (s.readV x)))

/-- `SUBN VX, VY` (41_alu.md rule R109): the minuend is `V[Y]`, the result goes to `V[X]`. -/
def execSubn (x y : RegIdx) (s : State) : Out State :=
  .next (s.advance.writeFlagged x (s.readV y - s.readV x) (noBorrow (s.readV y) (s.readV x)))

/-- `SHL VX` (41_alu.md rule R110): the second register field is ignored. -/
def execShl (x _y : RegIdx) (s : State) : Out State :=
  .next (s.advance.writeFlagged x (s.readV x <<< 1) (outLeft (s.readV x)))

/-- `RND VX, NN` (41_alu.md rule R111): one fresh free byte, masked; log entry 1. -/
def execRnd (x : RegIdx) (nn : Byte) (s : State) : Out State :=
  .next (s.advance.tookDraw.writeV x (s.drawn &&& nn))

end Sys2Proof.Machine
end

