-- ==== Sys2Proof/Machine/Control.lean ====
section
/-! DEFINITION. The control-transfer instructions (40_control.md). Every meaning takes the state on entry of
the `STEP`, so `s.pc` is `a`, the address of the instruction, and `s.advance` is what the spec's
pseudocode starts from; log entry 9. -/

namespace Sys2Proof.Machine

/-- `NOP` (40_control.md rule R80). -/
def execNop (s : State) : Out State := .next s.advance

/-- `RET` (40_control.md rule R81). -/
def execRet (s : State) : Out State :=
  match s.advance.pop? with
  | some (w, t) => .next (t.setPC w)
  | none => faultStep .stackUnderflow s

/-- `JP NNN` (40_control.md rule R82). -/
def execJp (nnn : Addr12) (s : State) : Out State := .next (s.advance.setPC (zext16 nnn))

/-- `CALL NNN` (40_control.md rule R83): what is pushed is the advanced `PC`, `a + 2` (conflict C11). -/
def execCall (nnn : Addr12) (s : State) : Out State :=
  match s.advance.push? s.advance.pc with
  | some t => .next (t.setPC (zext16 nnn))
  | none => faultStep .stackOverflow s

/-- `JP V0, NNN` (40_control.md rule R84): the sum is not reduced to 12 bits. -/
def execJpV0 (nnn : Addr12) (s : State) : Out State :=
  .next (s.advance.setPC (zext16 nnn + zext16 (s.readV 0)))

/-- `SE VX, NN` (40_control.md rule R85). -/
def execSeImm (x : RegIdx) (nn : Byte) (s : State) : Out State :=
  .next (s.advance.skipIf (s.readV x == nn))

/-- `SNE VX, NN` (40_control.md rule R86). -/
def execSneImm (x : RegIdx) (nn : Byte) (s : State) : Out State :=
  .next (s.advance.skipIf (s.readV x != nn))

/-- `SE VX, VY` (40_control.md rule R87). -/
def execSeReg (x y : RegIdx) (s : State) : Out State :=
  .next (s.advance.skipIf (s.readV x == s.readV y))

/-- `SNE VX, VY` (40_control.md rule R88). -/
def execSneReg (x y : RegIdx) (s : State) : Out State :=
  .next (s.advance.skipIf (s.readV x != s.readV y))

end Sys2Proof.Machine
end

