-- ==== Sys2Proof/Machine/Display.lean ====
section
/-! DEFINITION. The display framebuffer and its instructions (43_display.md). -/

namespace Sys2Proof.Machine

/-- `DISP[y][x]` (10_state.md rule R24). -/
def Display.cell (d : Display) (y : Fin Config.dispHeight) (x : Fin Config.dispWidth) : Bool := d[y.val][x.val]

/-- `DISP[y][x] <- b` (10_state.md rule R24). -/
def Display.setCell (d : Display) (y : Fin Config.dispHeight) (x : Fin Config.dispWidth) (b : Bool) : Display :=
  d.set y.val (d[y.val].set x.val b)

/-- A display with no cell lit (43_display.md rule R130). -/
def Display.clear : Display :=
  Vector.replicate Config.dispHeight (Vector.replicate Config.dispWidth false)

/-- A drawing under way: the display, and whether a lit cell has been turned off (`hit`). -/
structure Canvas where
  disp : Display
  hit : Bool
deriving DecidableEq, Repr

/-- A 1 bit of the sprite visits a cell: note a collision, then toggle (43_display.md rule R131). -/
def Canvas.visit (c : Canvas) (y : Fin Config.dispHeight) (x : Fin Config.dispWidth) : Canvas :=
  ⟨c.disp.setCell y x (!(c.disp.cell y x)), c.hit || c.disp.cell y x⟩

/-- Column `col` of a sprite row: bit 7 is the leftmost pixel, a 0 bit does nothing, and the coordinates
wrap (43_display.md rule R131). -/
def drawPixel (x0 cy : Nat) (b : Byte) (c : Canvas) (col : Nat) : Canvas :=
  if b.getLsbD (7 - col) then c.visit (Fin.ofNat Config.dispHeight cy) (Fin.ofNat Config.dispWidth (x0 + col)) else c

/-- One sprite row, its eight columns from the left (43_display.md rule R131). -/
def drawRow (x0 cy : Nat) (b : Byte) (c : Canvas) : Canvas :=
  (List.range 8).foldl (drawPixel x0 cy b) c

/-- The rows of a sprite from display row `cy` down (43_display.md rule R131). -/
def drawRows (x0 cy : Nat) (rows : List Byte) (c : Canvas) : Canvas :=
  match rows with
  | [] => c
  | b :: rest => drawRows x0 (cy + 1) rest (drawRow x0 cy b c)

/-- `CLS` (43_display.md rule R130). -/
def execCls (s : State) : Out State := .next (s.advance.setDisp Display.clear)

/-- `DRW VX, VY, N` (43_display.md rule R131): operands are read first, `VF` is written once, last
(decision D19). -/
def execDrw (x y : RegIdx) (n : Nibble) (s : State) : Out State :=
  withRange s.base n.toNat s
    (let c := drawRows (s.readV x).toNat (s.readV y).toNat (s.mem.readBytes s.base n.toNat)
        ⟨s.disp, false⟩
     .next ((s.advance.setDisp c.disp).writeV flagReg (flagByte c.hit)))

end Sys2Proof.Machine
end

