-- ==== Sys2Proof/Machine/IndexMemory.lean ====
section
/-! DEFINITION. Index-register and memory instructions (42_index_memory.md). `I` is not changed by any
access (rule R126). -/

namespace Sys2Proof.Machine

/-- `LD I, NNN` (42_index_memory.md rule R120). -/
def execLdI (nnn : Addr12) (s : State) : Out State := .next (s.advance.setI (zext16 nnn))

/-- `ADD I, VX` (42_index_memory.md rule R121): wraps at 2^16, and writes no flag. -/
def execAddI (x : RegIdx) (s : State) : Out State :=
  .next (s.advance.setI (s.i + zext16 (s.readV x)))

/-- `LD F, VX` (42_index_memory.md rule R122). -/
def execLdF (x : RegIdx) (s : State) : Out State := .next (s.advance.setI (glyphAddress (s.readV x)))

/-- `LD B, VX` (42_index_memory.md rule R123). -/
def execLdB (x : RegIdx) (s : State) : Out State :=
  withRange s.base 3 s (.next (s.advance.store s.base (bcdDigits (s.readV x))))

/-- `LD [I], VX` (42_index_memory.md rule R124). -/
def execLdMemVx (x : RegIdx) (s : State) : Out State :=
  withRange s.base (bulkCount x) s
    (.next (s.advance.store s.base (s.firstRegs (bulkCount x))))

/-- `LD VX, [I]` (42_index_memory.md rule R125). -/
def execLdVxMem (x : RegIdx) (s : State) : Out State :=
  withRange s.base (bulkCount x) s
    (.next (s.advance.loadRegs 0 (s.mem.readBytes s.base (bulkCount x))))

end Sys2Proof.Machine
end

