-- ==== Sys2Proof/Machine/KeypadTimers.lean ====
section
/-! DEFINITION. Keypad and timer instructions (44_keypad_timers.md). -/

namespace Sys2Proof.Machine

/-- `SKP VX` (44_keypad_timers.md rule R140). -/
def execSkp (x : RegIdx) (s : State) : Out State :=
  match s.key? (s.readV x).toNat with
  | some down => .next (s.advance.skipIf down)
  | none => faultStep (.keyIndexRange (s.readV x)) s

/-- `SKNP VX` (44_keypad_timers.md rule R141). -/
def execSknp (x : RegIdx) (s : State) : Out State :=
  match s.key? (s.readV x).toNat with
  | some down => .next (s.advance.skipIf (!down))
  | none => faultStep (.keyIndexRange (s.readV x)) s

/-- `LD VX, DT` (44_keypad_timers.md rule R143). -/
def execLdVxDT (x : RegIdx) (s : State) : Out State := .next (s.advance.writeV x s.dt)

/-- `LD VX, K` (44_keypad_timers.md rule R142): with no key down the step completes and `PC` is back at
the instruction. -/
def execLdVxK (x : RegIdx) (s : State) : Out State :=
  match s.firstPressed with
  | some k => .next (s.advance.writeV x (BitVec.ofNat 8 k))
  | none => .next s.advance.rewind

/-- `LD DT, VX` (44_keypad_timers.md rule R144). -/
def execLdDTVx (x : RegIdx) (s : State) : Out State := .next (s.advance.setDT (s.readV x))

/-- `LD ST, VX` (44_keypad_timers.md rule R145). -/
def execLdSTVx (x : RegIdx) (s : State) : Out State := .next (s.advance.setST (s.readV x))

end Sys2Proof.Machine
end

