-- ==== Sys2Proof/Machine/Cycle.lean ====
section
/-! DEFINITION. The step cycle (45_host_operations.md rule R152): fetch, advance, decode, execute. -/

namespace Sys2Proof.Machine

/-- The opcode at `PC`: two byte reads, the high byte first (20_memory.md rule R40); the caller has checked
the range. -/
def State.opcode (s : State) : Word :=
  opcodeOf (s.mem.read s.pc.toNat) (s.mem.read (s.pc.toNat + 1))

/-- Decode the fetched opcode and execute it, or fault (45_host_operations.md rule R152, 60_exceptions.md
rules R172 and R179). -/
def decodeAndExec (s : State) : Out State :=
  match decode s.opcode with
  | .ok i => exec i s
  | .error _ => faultStep (.decodeFailure s.opcode) s

/-- `STEP` (45_host_operations.md rule R152): inhibited in the fault state; the fetch is checked as a range of
two bytes from `PC` (rule R41 of 20_memory.md). -/
def stepCycle (s : State) : Out State :=
  match s.fault with
  | some _ => .next s
  | none => withRange s.pc.toNat Config.insnWidth s (decodeAndExec s)

/-- Place a word where the next fetch reads it: its bytes at `PC` and `PC + 1`, `FAULT` empty (in the
fault state nothing is fetched), and `PC` at `BASE` where the word would not fit at `PC`; log entry 7. -/
def State.placeWord (s : State) (op : Word) : State :=
  let t := { s with fault := none }
  let u := match rangeFault t.pc.toNat Config.insnWidth with
    | none => t
    | some _ => t.setPC (BitVec.ofNat Config.pcWidth Config.base)
  u.store u.pc.toNat (wordBytes op)

end Sys2Proof.Machine
end

