-- ==== Sys2Proof/Machine/Step.lean ====
section
/-! DEFINITION. The step of the machine, `STEP` (45_host_operations.md rule R152), and the placing of one
instruction for the next step. -/

namespace Sys2Proof.Machine

/-- One step: the operation `STEP` (45_host_operations.md rule R152). -/
def step (s : State) : Host.Outcome State Fault Refusal := stepCycle s

/-- `s` with the instruction whose `nbits` bits are `w` placed where the very next step fetches it; log
entry 7. -/
def State.withFetchWord (s : State) (nbits w : Nat) : State := s.placeWord (tableWord nbits w)

end Sys2Proof.Machine
end

