-- ==== Sys2Proof/Machine/HostOps.lean ====
section
/-! DEFINITION. The operations and observers the core offers its host (45_host_operations.md rule R150):
everything the outside world can do to the machine and see of it. -/

namespace Sys2Proof.Machine

/-- `INIT` (70_reset_and_hazards.md rule R200): every field at its reset value. The environment's draws are
no state and are not restarted (rule R202); log entry 2. -/
def hostInit (s : State) : State := { State.reset with draws := s.draws }

/-- `RESET` (70_reset_and_hazards.md rule R201): exactly the effect of `INIT`. The program is erased, and this
is the one way out of the fault state (60_exceptions.md rule R180). -/
def hostReset (s : State) : State := hostInit s

/-- `LOAD(image)` (45_host_operations.md rule R156): an image that does not fit faults with `at` absent and
writes nothing. It works in the fault state (60_exceptions.md rule R176). -/
def hostLoad (image : List Byte) (s : State) : State :=
  match rangeFault Config.base image.length with
  | none => s.store Config.base image
  | some a => s.raise (.memoryBounds a) none

/-- `TICK` (60_exceptions.md rule R185): each timer counts down by one if it is above 0. -/
def hostTick (s : State) : State :=
  (s.setDT (if s.dt = 0 then s.dt else s.dt - 1)).setST (if s.st = 0 then s.st else s.st - 1)

/-- `SETKEY(k, pressed)` (45_host_operations.md rule R157). -/
def hostSetKey (k : Nat) (pressed : Bool) (s : State) : State := s.setKey k pressed

/-- The observer `DISPLAY` (45_host_operations.md rule R158): 2048 booleans, row-major. -/
def State.display (s : State) : List Bool := s.disp.flatten.toList

/-- The observer `sound_active` (45_host_operations.md rule R159): exactly `ST > 0`. -/
def State.soundActive (s : State) : Bool := decide (0 < s.st.toNat)

/-- The observer `FAULT_STATUS` (45_host_operations.md rule R160). -/
def State.faultStatus (s : State) : Option FaultRecord := s.fault

/-- The operations of the host that can change state (45_host_operations.md rule R150). -/
inductive HostOp where
  /-- `INIT`. -/
  | init
  /-- `RESET`. -/
  | reset
  /-- `LOAD(image)`. -/
  | load (image : List Byte)
  /-- `STEP`. -/
  | step
  /-- `TICK`. -/
  | tick
  /-- `SETKEY(k, pressed)`: any natural number may be given as the key index. -/
  | setKey (k : Nat) (pressed : Bool)
deriving DecidableEq, Repr

/-- The effect of one operation (45_host_operations.md rules R150 and R151). -/
def applyOp (op : HostOp) (s : State) : Out State :=
  match op with
  | .init => .next (hostInit s)
  | .reset => .next (hostReset s)
  | .load image => .next (hostLoad image s)
  | .step => Sys2Proof.Machine.step s
  | .tick => .next (hostTick s)
  | .setKey k pressed => .next (hostSetKey k pressed s)

/-- A host schedule: operations one after the other, in the order of the list (45_host_operations.md rule
R151). Every schedule is admitted (decision D25). -/
def runOps (ops : List HostOp) (s : State) : Out State :=
  match ops with
  | [] => .next s
  | op :: rest =>
    match applyOp op s with
    | .next t => runOps rest t
    | .fault r => .fault r
    | .refused r => .refused r

end Sys2Proof.Machine
end

