-- ==== Sys2Proof/Safety.lean ====
section
/-! DEFINITION. What counts as a safe run, and the terms the claims use: the invariant of every reachable
state (10_state.md rule R29), what an operation leaves unchanged, and the spec's tables of which
registers an instruction reads and writes (rule R12), where `PC` goes (rule R17) and which fault it
raises (60_exceptions.md rules R170, R174 and R179). The tables are written from the spec's tables, apart
from the meanings they are compared with. -/

namespace Sys2Proof.Machine

/-! ## Safe runs -/

/-- No fault is recorded (60_exceptions.md rule R176). -/
def State.running (s : State) : Prop := s.fault = none

/-- A run of `n` steps that ends with no fault recorded: a fault state is never a successful end
(60_exceptions.md rule R176). -/
def SafeRun (n : Nat) (s : State) : Prop :=
  ∃ t, Host.Core.run core n s = .next t ∧ t.running

/-- The states some host schedule reaches from the reset state (10_state.md rules R29 and R31). -/
def Reachable (s : State) : Prop := ∃ ops, runOps ops State.reset = .next s

/-- The invariant of every reachable state (10_state.md rule R29): `PC` is at most 0x10FE, every live
stack entry is from 2 to 0x1000; and memory is in the model's canonical form (log entry 10). The bounds
0 to 16 of `SP` and the widths of the registers are their types. -/
def State.Inv (s : State) : Prop :=
  s.pc.toNat ≤ 0x10FE ∧
  (∀ k (h : k < 16), k < s.sp.val → 2 ≤ s.stack[k].toNat ∧ s.stack[k].toNat ≤ 0x1000) ∧
  Memory.wf s.mem = true

/-! ## What an operation leaves unchanged -/

/-- What an operation may change besides `PC`; nothing that is not named. No instruction changes a key
latch, so there is no entry for them. -/
structure Touched where
  regs : RegIdx → Prop := fun _ => False
  bytes : Nat → Prop := fun _ => False
  index : Prop := False
  stack : Prop := False
  delay : Prop := False
  sound : Prop := False
  display : Prop := False
  fault : Prop := False
  draws : Prop := False

/-- `t` is `s` but for what `w` names, and `PC`: every other register, EVERY byte of memory outside
`w.bytes`, and every other piece of state is as before. -/
def Keeps (w : Touched) (s t : State) : Prop :=
  (∀ r, ¬ w.regs r → t.readV r = s.readV r) ∧
  (∀ a, ¬ w.bytes a → Memory.read t.mem a = Memory.read s.mem a) ∧
  (¬ w.index → t.i = s.i) ∧
  (¬ w.stack → t.stack = s.stack ∧ t.sp = s.sp) ∧
  (¬ w.delay → t.dt = s.dt) ∧
  (¬ w.sound → t.st = s.st) ∧
  (¬ w.display → t.disp = s.disp) ∧
  (¬ w.fault → t.fault = s.fault) ∧
  (¬ w.draws → t.draws = s.draws) ∧
  t.key = s.key

/-- The state after a fault of the step that began in `s`: `FAULT` written, nothing else changed
(60_exceptions.md rule R176). -/
def State.faulted (s : State) (c : FaultCause) : State := { s with fault := some ⟨c, some s.pc⟩ }

/-- The sprite of `DRW VX, VY, N` has a 1 bit for the cell in row `cy` and column `cx`: row `row` of it
is the byte at `I + row`, bit 7 leftmost, and the coordinates wrap (43_display.md rule R131). -/
def spriteBit (s : State) (x y : RegIdx) (n : Nibble) (cy : Fin 32) (cx : Fin 64) : Prop :=
  ∃ row col, row < n.toNat ∧ col < 8 ∧
    (Memory.read s.mem (s.i.toNat + row)).getLsbD (7 - col) = true ∧
    ((s.readV y).toNat + row) % 32 = cy.val ∧ ((s.readV x).toNat + col) % 64 = cx.val

/-! ## The spec's tables -/

/-- The registers an instruction writes, when it completes (10_state.md rule R12). -/
def writesReg (i : Instr) (r : RegIdx) : Bool :=
  match i with
  | .ldImm x _ | .addImm x _ | .rnd x _ | .ldVxDT x | .ldVxK x => r == x
  | .ldReg x _ | .or x _ | .and x _ | .xor x _ => r == x
  | .addReg x _ | .sub x _ | .shr x _ | .subn x _ | .shl x _ => r == x || r == 15
  | .drw _ _ _ => r == 15
  | .ldVxMem x => decide (r.toNat ≤ x.toNat)
  | .nop | .cls | .ret | .jp _ | .call _ | .ldI _ | .jpV0 _ => false
  | .seImm _ _ | .sneImm _ _ | .seReg _ _ | .sneReg _ _ | .skp _ | .sknp _ => false
  | .ldDTVx _ | .ldSTVx _ | .addI _ | .ldF _ | .ldB _ | .ldMemVx _ => false

/-- The registers an instruction reads (10_state.md rule R12). -/
def readsReg (i : Instr) (r : RegIdx) : Bool :=
  match i with
  | .seImm x _ | .sneImm x _ | .addImm x _ | .shr x _ | .shl x _ => r == x
  | .seReg x y | .sneReg x y | .or x y | .and x y | .xor x y => r == x || r == y
  | .addReg x y | .sub x y | .subn x y | .drw x y _ => r == x || r == y
  | .ldReg _ y => r == y
  | .skp x | .sknp x | .ldDTVx x | .ldSTVx x | .addI x | .ldF x | .ldB x => r == x
  | .jpV0 _ => r == 0
  | .ldMemVx x => decide (r.toNat ≤ x.toNat)
  | .nop | .cls | .ret | .jp _ | .call _ | .ldI _ => false
  | .ldImm _ _ | .rnd _ _ | .ldVxDT _ | .ldVxK _ | .ldVxMem _ => false

/-- Does the condition of a skip hold (10_state.md rule R17, 40_control.md rules R85 to R88,
44_keypad_timers.md rules R140 and R141)? An instruction that is no skip never skips. -/
def skips (i : Instr) (s : State) : Prop :=
  match i with
  | .seImm x nn => s.readV x = nn
  | .sneImm x nn => s.readV x ≠ nn
  | .seReg x y => s.readV x = s.readV y
  | .sneReg x y => s.readV x ≠ s.readV y
  | .skp x => s.key? (s.readV x).toNat = some true
  | .sknp x => s.key? (s.readV x).toNat = some false
  | .nop | .cls | .ret | .jp _ | .call _ | .ldI _ | .jpV0 _ | .ldImm _ _ | .addImm _ _ => False
  | .ldReg _ _ | .or _ _ | .and _ _ | .xor _ _ | .addReg _ _ | .sub _ _ | .shr _ _ => False
  | .subn _ _ | .shl _ _ | .rnd _ _ | .drw _ _ _ | .ldVxDT _ | .ldVxK _ | .ldDTVx _ => False
  | .ldSTVx _ | .addI _ | .ldF _ | .ldB _ | .ldMemVx _ | .ldVxMem _ => False

/-- The fault an instruction raises in a state, if it raises one (60_exceptions.md rules R170, R174 and
R179): the column "when" of the table of faults. -/
def faultOf (i : Instr) (s : State) : Option FaultCause :=
  match i with
  | .ret => if s.sp.val = 0 then some .stackUnderflow else none
  | .call _ => if s.sp.val = 16 then some .stackOverflow else none
  | .drw _ _ n =>
    if 1 ≤ n.toNat ∧ 4096 < s.i.toNat + n.toNat then some (.memoryBounds (max s.i.toNat 4096))
    else none
  | .ldB _ => if 4096 < s.i.toNat + 3 then some (.memoryBounds (max s.i.toNat 4096)) else none
  | .ldMemVx x | .ldVxMem x =>
    if 4096 < s.i.toNat + x.toNat + 1 then some (.memoryBounds (max s.i.toNat 4096)) else none
  | .skp x | .sknp x =>
    if 15 < (s.readV x).toNat then some (.keyIndexRange (s.readV x)) else none
  | .nop | .cls | .jp _ | .ldI _ | .jpV0 _ | .ldImm _ _ | .addImm _ _ | .ldReg _ _ => none
  | .or _ _ | .and _ _ | .xor _ _ | .addReg _ _ | .sub _ _ | .shr _ _ | .subn _ _ => none
  | .shl _ _ | .rnd _ _ | .seImm _ _ | .sneImm _ _ | .seReg _ _ | .sneReg _ _ => none
  | .ldVxDT _ | .ldVxK _ | .ldDTVx _ | .ldSTVx _ | .addI _ | .ldF _ => none

end Sys2Proof.Machine
end

