-- ==== Sys2Proof/Certificates/Slice0/Obligations.lean ====
section
/-! DEFINITION. The statements for the provers. Each docstring names the rule of spec/ it formalises. Constants
(4096 for `MEM_SIZE`, 0x200 for `BASE`) are written as the spec's numbers. A statement on what an
instruction does takes the state on entry of the `STEP`, so `s.pc` is the address of the instruction
(log entry 9), and where it has no premise on `FAULT` it speaks of `exec` from states with `FAULT` set as
well, which is log entry 13. -/

open Sys2Proof Sys2Proof.Machine

/-! ## Encoding and decoding -/

/-- Words written out from 30_encoding.md rules R63 and R64 decode to the instructions they stand for, at least
one of each family, and words that match no row are rejected by name (rule R67). -/
def Obligations.SpecWordsDecode : Prop :=
  decode 0x0000 = .ok .nop ∧ decode 0x00E0 = .ok .cls ∧ decode 0x00EE = .ok .ret ∧
  decode 0x1204 = .ok (.jp 0x204) ∧ decode 0x2210 = .ok (.call 0x210) ∧
  decode 0x3F01 = .ok (.seImm 15 0x01) ∧ decode 0x4A07 = .ok (.sneImm 10 0x07) ∧
  decode 0x5120 = .ok (.seReg 1 2) ∧ decode 0x610A = .ok (.ldImm 1 0x0A) ∧
  decode 0x71FF = .ok (.addImm 1 0xFF) ∧ decode 0x8F14 = .ok (.addReg 15 1) ∧
  decode 0x81FE = .ok (.shl 1 15) ∧ decode 0x9120 = .ok (.sneReg 1 2) ∧
  decode 0xA300 = .ok (.ldI 0x300) ∧ decode 0xBFFF = .ok (.jpV0 0xFFF) ∧
  decode 0xC10F = .ok (.rnd 1 0x0F) ∧ decode 0xD018 = .ok (.drw 0 1 8) ∧
  decode 0xE1A1 = .ok (.sknp 1) ∧ decode 0xF10A = .ok (.ldVxK 1) ∧
  decode 0xF465 = .ok (.ldVxMem 4) ∧
  decode 0x5121 = .error (.unrecognized 0x5121) ∧ decode 0x800F = .error (.unrecognized 0x800F) ∧
  decode 0x0123 = .error (.unrecognized 0x0123)

/-- 30_encoding.md rules R62 to R66: decoding the word of an instruction gives it back, every operand at every
value, the ignored `Y` of `SHR` and `SHL` (rule R68) included. -/
def Obligations.DecodeOfEncodeIsIdentity : Prop := ∀ i : Instr, decode (encode i) = .ok i

/-- 30_encoding.md rule R66: a word that decodes to an instruction is the word of that instruction, so no bit of
a legal word is dropped. -/
def Obligations.EncodeOfDecodeIsIdentity : Prop :=
  ∀ (w : Word) (i : Instr), decode w = .ok i → encode i = w

/-- 30_encoding.md rules R64, R66 and R67: the decode procedure and the table of masks and matches agree. A word
that decodes selects the row of its instruction; exactly one row of the table is selected when the word decodes
and none when it does not; and a word that selects no row is rejected by name. -/
def Obligations.DecoderAgreesWithTheMap : Prop :=
  ∀ w : Word,
    (∀ i, decode w = .ok i →
      i.row ∈ decodeMap ∧ decodeMap.filter (fun r => r.selects w) = [i.row]) ∧
    (wellFormedWord w = false → decode w = .error (.unrecognized w)) ∧
    (wellFormedWord w = true → ∃ i, decode w = .ok i)

/-! ## The step cycle -/

/-- 45_host_operations.md rule R152: `STEP` in its four cases. In the fault state nothing happens; a fetch past
the end of memory and an unrecognized opcode fault with everything else as it was; and when the two bytes at
`PC`, the high byte first, decode to `i`, the step is exactly the execution of `i` at that state (whose meaning
makes the advance of `PC`; log entry 9). Any `PC` in range is fetched from, odd or even (20_memory.md rule R42).
-/
def Obligations.StepRunsTheDecodedInstruction : Prop :=
  ∀ s : State,
    (s.fault ≠ none → step s = .next s) ∧
    (s.fault = none → 4096 ≤ s.pc.toNat + 1 →
      step s = .next (s.faulted (.memoryBounds (max s.pc.toNat 4096)))) ∧
    (s.fault = none → s.pc.toNat + 1 < 4096 → ∀ op : Word,
      op = Memory.read s.mem s.pc.toNat ++ Memory.read s.mem (s.pc.toNat + 1) →
      (∀ i, decode op = .ok i → step s = exec i s) ∧
      ((∀ i, decode op ≠ .ok i) → step s = .next (s.faulted (.decodeFailure op))))

/-- The placing of an instruction for the next step (log entry 7) does what it is for: the very next step runs
the decoded instruction, from every state. -/
def Obligations.PlacedWordRunsNext : Prop :=
  ∀ (s : State) (w : Nat) (i : Instr), decodeTableWord 16 w = some i →
    step (s.withFetchWord 16 w) = exec i (s.withFetchWord 16 w)

/-- 45_host_operations.md rule R154 (a), which the spec marks as derived from rules R152 and R153: from every
state a step, and every instruction, terminates "either with a new state or with a fault"; the core is never
stuck. That a fault too is a NEXT state, the register `FAULT` written, is the model's (log entry 3, DEDUCED from
rules R171 and R176), and so is what `exec` does from a state with `FAULT` set, which no `STEP` ever asks (log
entry 13, DESIGN CHOICE). -/
def Obligations.EveryStepAnswersANextState : Prop :=
  (∀ (i : Instr) (s : State), ∃ t, exec i s = .next t) ∧ ∀ s : State, ∃ t, step s = .next t

/-- 45_host_operations.md rule R154 (b), marked as derived by the spec, and 41_alu.md rule R111: the draw
reaches no instruction but `RND`. The counter is the model's own field (log entries 1 and 2). Another draw
counter changes nothing in what any other instruction does, and it comes out as it went in. -/
def Obligations.OnlyRndDependsOnTheDraw : Prop :=
  ∀ (i : Instr) (s : State) (n : Nat), (∀ x nn, i ≠ .rnd x nn) →
    ∃ t, exec i s = .next t ∧
      exec i { s with draws := n } = .next { t with draws := n } ∧ t.draws = s.draws

/-- 45_host_operations.md rule R154 (c) and (d), marked as derived by the spec, with the writers that
10_state.md rules R19 to R24 give: which instructions, and no other, change the key latches, the timers, `I`,
the display, memory and the stack with its count. The general registers, `PC` and `FAULT` have statements of
their own (`RegistersChangeOnlyAsTabled`, `PcAfterEveryInstruction`, `FaultsAreExactlyAsTabled`). Two clauses
are the model's: that the stack array changes at `CALL` only, so that `RET` keeps the dead entry, is log entry 8
(DESIGN CHOICE; rule R22 lets a model keep it or drop it), and the draw counter is the model's own field (log
entries 1 and 2). -/
def Obligations.EachStateHasOnlyItsWriters : Prop :=
  ∀ (i : Instr) (s t : State), exec i s = .next t →
    t.key = s.key ∧
    (t.dt ≠ s.dt → ∃ x, i = .ldDTVx x) ∧
    (t.st ≠ s.st → ∃ x, i = .ldSTVx x) ∧
    (t.i ≠ s.i → (∃ nnn, i = .ldI nnn) ∨ (∃ x, i = .addI x) ∨ ∃ x, i = .ldF x) ∧
    (t.disp ≠ s.disp → i = .cls ∨ ∃ x y n, i = .drw x y n) ∧
    (t.mem ≠ s.mem → (∃ x, i = .ldB x) ∨ ∃ x, i = .ldMemVx x) ∧
    (t.stack ≠ s.stack → ∃ nnn, i = .call nnn) ∧
    (t.sp ≠ s.sp → i = .ret ∨ ∃ nnn, i = .call nnn) ∧
    (t.draws ≠ s.draws → ∃ x nn, i = .rnd x nn)

/-- 10_state.md rules R12 (writes) and R14: an instruction leaves every register unchanged that the table of
rule R12 does not let it write, `VF` included. -/
def Obligations.RegistersChangeOnlyAsTabled : Prop :=
  ∀ (i : Instr) (s t : State) (r : RegIdx), exec i s = .next t → writesReg i r = false →
    t.readV r = s.readV r

/-- 10_state.md rule R12 (reads): a register the table does not let an instruction read has no effect on what
the instruction does. Two runs that differ in that register alone end alike in everything but that register. -/
def Obligations.UnreadRegistersDoNotMatter : Prop :=
  ∀ (i : Instr) (s : State) (r : RegIdx) (b : Byte), readsReg i r = false →
    ∃ t u, exec i s = .next t ∧ exec i (s.writeV r b) = .next u ∧
      (∀ q, q ≠ r → u.readV q = t.readV q) ∧
      u.pc = t.pc ∧ u.mem = t.mem ∧ u.i = t.i ∧ u.stack = t.stack ∧ u.sp = t.sp ∧ u.key = t.key ∧
      u.dt = t.dt ∧ u.st = t.st ∧ u.disp = t.disp ∧ u.fault = t.fault ∧ u.draws = t.draws

/-- 10_state.md rule R17: where `PC` is after an instruction at `a`, for every instruction; a step that faults
leaves it at `a`. -/
def Obligations.PcAfterEveryInstruction : Prop :=
  ∀ (i : Instr) (s t : State), s.fault = none → exec i s = .next t →
    (t.fault ≠ none → t.pc = s.pc) ∧
    (t.fault = none →
      match i with
      | .jp nnn => t.pc.toNat = nnn.toNat
      | .call nnn => t.pc.toNat = nnn.toNat
      | .ret => s.stack[s.sp.val - 1]? = some t.pc
      | .jpV0 nnn => t.pc.toNat = nnn.toNat + (s.readV 0).toNat
      | .ldVxK _ =>
        ((∃ k, s.key? k = some true) → t.pc = s.pc + 2) ∧
          ((∀ k, s.key? k ≠ some true) → t.pc = s.pc)
      | j => (skips j s → t.pc = s.pc + 4) ∧ (¬ skips j s → t.pc = s.pc + 2))

/-! ## Faults -/

/-- 60_exceptions.md rules R170 and R179: each instruction faults exactly in the states, with exactly the kind
and the recorded information, that the table of faults gives it, `at` being the address of the instruction; no
instruction raises any other fault. The kinds `StackOverflow` and `KeyIndexRange` and the order of the faults
are the spec's decisions D8, D9 and D13. -/
def Obligations.FaultsAreExactlyAsTabled : Prop :=
  ∀ (i : Instr) (s : State), s.fault = none →
    ∃ t, exec i s = .next t ∧ t.fault = (faultOf i s).map (fun c => ⟨c, some s.pc⟩)

/-- 60_exceptions.md rule R176 (a): faults are precise. A step that begins with no fault and ends with one
changes nothing but `FAULT`, which records the address of the instruction (the spec's decisions D10 and D11). -/
def Obligations.FaultsArePrecise : Prop :=
  ∀ s t : State, s.fault = none → step s = .next t → t.fault ≠ none →
    ∃ c, t = s.faulted c

/-- 60_exceptions.md rules R176 (b) to (d) and R180: in the fault state no operation but `INIT` and `RESET`
changes `FAULT` or what `FAULT_STATUS` shows of it, whatever the schedule, and no `STEP` changes anything, while
`TICK` has its effect (the spec's decision D11). -/
def Obligations.FaultIsStickyUntilReset : Prop :=
  (∀ (ops : List HostOp) (s : State), s.fault ≠ none → HostOp.init ∉ ops → HostOp.reset ∉ ops →
    ∃ t, runOps ops s = .next t ∧ t.fault = s.fault ∧ t.faultStatus = s.fault) ∧
  (∀ s : State, s.fault ≠ none → applyOp .step s = .next s) ∧
  (∀ s : State, s.fault ≠ none → applyOp .tick s = .next (hostTick s) ∧
    (hostTick s).dt.toNat = s.dt.toNat - 1 ∧ (hostTick s).st.toNat = s.st.toNat - 1) ∧
  ∀ s : State, applyOp .init s = .next (hostInit s) ∧ (hostInit s).fault = none ∧
    (hostReset s).fault = none

/-! ## Reset, invariants, host operations -/

/-- 10_state.md rule R30: the state after `INIT` and after `RESET`. The bytes of the glyph table are a statement
of their own. Memory above the table, the key latches and `FAULT` at reset are the spec's decisions D5, D6, D7
and D11 (log entry 5). -/
def Obligations.ResetStateIsAsTabled : Prop :=
  State.reset.pc = 0x200 ∧ (∀ r, State.reset.readV r = 0) ∧ State.reset.i = 0 ∧
  State.reset.sp = 0 ∧ (∀ k (h : k < 16), State.reset.stack[k] = 0) ∧
  State.reset.dt = 0 ∧ State.reset.st = 0 ∧ (∀ y x, State.reset.disp.cell y x = false) ∧
  (∀ k, k < 16 → State.reset.key? k = some false) ∧
  (∀ a, a < 80 → Memory.read State.reset.mem a = Config.glyphTable.getD a 0) ∧
  (∀ a, 80 ≤ a → a < 4096 → Memory.read State.reset.mem a = 0) ∧
  State.reset.fault = none ∧ State.reset.soundActive = false

/-- 10_state.md rule R33: the 80 bytes of the glyph table, which the reset memory holds from address 0 up. The
bytes are the spec's default and not its source's (decision D4; log entry 4). -/
def Obligations.GlyphTableBytes : Prop :=
  Memory.readBytes State.reset.mem 0 80 =
    [0xF0, 0x90, 0x90, 0x90, 0xF0, 0x20, 0x60, 0x20, 0x20, 0x70, 0xF0, 0x10, 0xF0, 0x80, 0xF0] ++
    [0xF0, 0x10, 0xF0, 0x10, 0xF0, 0x90, 0x90, 0xF0, 0x10, 0x10, 0xF0, 0x80, 0xF0, 0x10, 0xF0] ++
    [0xF0, 0x80, 0xF0, 0x90, 0xF0, 0xF0, 0x10, 0x20, 0x40, 0x40, 0xF0, 0x90, 0xF0, 0x90, 0xF0] ++
    [0xF0, 0x90, 0xF0, 0x10, 0xF0, 0xF0, 0x90, 0xF0, 0x90, 0x90, 0xE0, 0x90, 0xE0, 0x90, 0xE0] ++
    [0xF0, 0x80, 0x80, 0x80, 0xF0, 0xE0, 0x90, 0x90, 0x90, 0xE0, 0xF0, 0x80, 0xF0, 0x80, 0xF0] ++
    [0xF0, 0x80, 0xF0, 0x80, 0x80]

/-- 10_state.md rule R29, marked as derived by the spec: the bounds of `PC` and of the live stack entries hold
at reset; and memory has the model's canonical form there (log entry 10, DESIGN CHOICE). -/
def Obligations.ResetMeetsInv : Prop := State.reset.Inv

/-- 10_state.md rules R18 and R29: every step from a state with the invariant gives a state with it: `PC` at
most 0x10FE, live stack entries from 2 to 0x1000 (what the spec marks as derived from rule R17), and memory in
the model's canonical form (log entry 10). -/
def Obligations.StepKeepsInv : Prop :=
  ∀ s t : State, s.Inv → step s = .next t → t.Inv

/-- 10_state.md rule R29, marked as derived by the spec, with 45_host_operations.md rule R151: in every state
that any schedule of host operations reaches from reset the bounds of `PC` and of the live stack entries hold,
and memory has the model's canonical form (log entry 10, DESIGN CHOICE); and every such schedule can be carried
on by any operation, a fault being a next state (log entry 3). -/
def Obligations.EveryReachableStateMeetsInv : Prop :=
  ∀ s : State, Reachable s → s.Inv ∧ ∀ op, ∃ t, applyOp op s = .next t ∧ Reachable t

/-- 70_reset_and_hazards.md rules R201 and R202 (decisions D6 and D7, and an inference the spec marks): `RESET`
has exactly the effect of `INIT`, and the state after it does not depend on the state before; only the
environment's draws go on (log entry 2). -/
def Obligations.ResetIsHistoryFree : Prop :=
  ∀ s u : State, hostReset s = hostInit s ∧
    hostReset s = { State.reset with draws := s.draws } ∧
    { hostReset s with draws := 0 } = { hostReset u with draws := 0 }

/-- 45_host_operations.md rule R156: `LOAD` writes the image from 0x200 up and nothing else; an image of more
than 3584 bytes faults with `at` absent and writes nothing (decision D21). -/
def Obligations.LoadPlacesTheImage : Prop :=
  ∀ (image : List Byte) (s : State),
    (image.length ≤ 3584 →
      Keeps { bytes := fun a => 0x200 ≤ a ∧ a < 0x200 + image.length } s (hostLoad image s) ∧
      (hostLoad image s).pc = s.pc ∧
      ∀ k, k < image.length →
        Memory.read (hostLoad image s).mem (0x200 + k) = image.getD k 0) ∧
    (3584 < image.length → s.fault = none →
      hostLoad image s = { s with fault := some ⟨.memoryBounds 4096, none⟩ }) ∧
    (3584 < image.length → s.fault ≠ none → hostLoad image s = s)

/-- 70_reset_and_hazards.md rule R203: after `INIT`, and still after `INIT` and `LOAD` of any image that fits,
`PC` is the base address and the first 80 bytes of memory are the glyph table. -/
def Obligations.InitThenLoadKeepsGlyphs : Prop :=
  ∀ (image : List Byte) (s : State), image.length ≤ 3584 →
    ∃ t, runOps [.init, .load image] s = .next t ∧ t.pc = 0x200 ∧
      (hostInit s).pc = 0x200 ∧ t.fault = none ∧
      Memory.readBytes t.mem 0 80 = Config.glyphTable ∧
      Memory.readBytes (hostInit s).mem 0 80 = Config.glyphTable

/-- 60_exceptions.md rule R185: `TICK` decrements each timer by one if it is above 0, leaves it at 0 otherwise,
and changes nothing else. -/
def Obligations.TickDecrementsBothTimers : Prop :=
  ∀ s : State,
    (hostTick s).dt.toNat = s.dt.toNat - 1 ∧ (hostTick s).st.toNat = s.st.toNat - 1 ∧
    (hostTick s).pc = s.pc ∧ Keeps { delay := True, sound := True } s (hostTick s)

/-- 60_exceptions.md rules R185 and R187: after any number of ticks each timer is lower by that number, floored
at 0; it never wraps. -/
def Obligations.TicksCountDownToZero : Prop :=
  ∀ (n : Nat) (s : State), ∃ t, runOps (List.replicate n .tick) s = .next t ∧
    t.dt.toNat = s.dt.toNat - n ∧ t.st.toNat = s.st.toNat - n ∧ t.pc = s.pc ∧
    Keeps { delay := True, sound := True } s t

/-- 45_host_operations.md rule R157: `SETKEY` writes the named latch and no other; an index above 15 has no
effect and no fault; and no other operation but `INIT` and `RESET` changes a latch. -/
def Obligations.SetKeyWritesOneLatch : Prop :=
  ∀ (k : Nat) (pressed : Bool) (s : State),
    (k ≤ 15 → (hostSetKey k pressed s).key? k = some pressed) ∧
    (∀ j, j ≠ k → (hostSetKey k pressed s).key? j = s.key? j) ∧
    { hostSetKey k pressed s with key := s.key } = s ∧
    (15 < k → hostSetKey k pressed s = s) ∧
    ∀ op t, applyOp op s = .next t → t.key ≠ s.key → op = .init ∨ op = .reset ∨ ∃ j b, op = .setKey j b

/-- 45_host_operations.md rules R158 and R159: the observers. `DISPLAY` gives 2048 booleans, row-major;
`sound_active` is `ST > 0`, and false after reset. -/
def Obligations.ObserversShowTheState : Prop :=
  ∀ s : State,
    s.display.length = 2048 ∧
    (∀ (y : Fin 32) (x : Fin 64), s.display[64 * y.val + x.val]? = some (s.disp.cell y x)) ∧
    (s.soundActive = true ↔ 0 < s.st.toNat) ∧ State.reset.soundActive = false

/-! ## Control transfer (40_control.md) -/

/-- 40_control.md rule R80: `NOP` changes nothing but `PC`. -/
def Obligations.NopOnlyAdvances : Prop :=
  ∀ s : State, ∃ t, exec .nop s = .next t ∧ t.pc = s.pc + 2 ∧ Keeps {} s t

/-- 40_control.md rule R81: `RET` pops the newest live entry into `PC`, and faults with nothing changed when
there is none. -/
def Obligations.RetPopsTheReturnAddress : Prop :=
  ∀ s : State,
    (0 < s.sp.val → ∃ t, exec .ret s = .next t ∧
      s.stack[s.sp.val - 1]? = some t.pc ∧ t.sp.val = s.sp.val - 1 ∧
      (∀ k, k < t.sp.val → t.stack[k]? = s.stack[k]?) ∧ Keeps { stack := True } s t) ∧
    (s.sp.val = 0 → s.fault = none → exec .ret s = .next (s.faulted .stackUnderflow))

/-- 40_control.md rule R83: `CALL` pushes `a + 2` and jumps, and faults with nothing changed when 16 entries are
live (decision D8). -/
def Obligations.CallPushesTheReturnAddress : Prop :=
  ∀ (nnn : Addr12) (s : State),
    (s.sp.val < 16 → ∃ t, exec (.call nnn) s = .next t ∧
      t.pc.toNat = nnn.toNat ∧ t.sp.val = s.sp.val + 1 ∧ t.stack[s.sp.val]? = some (s.pc + 2) ∧
      (∀ k, k ≠ s.sp.val → t.stack[k]? = s.stack[k]?) ∧ Keeps { stack := True } s t) ∧
    (s.sp.val = 16 → s.fault = none → exec (.call nnn) s = .next (s.faulted .stackOverflow))

/-- 40_control.md rules R81 and R83 together: a `RET` executed where a `CALL` left the stack comes back to the
instruction after the `CALL`, with the stack count as before and everything else untouched. -/
def Obligations.RetAfterCallComesBack : Prop :=
  ∀ (nnn : Addr12) (s : State), s.sp.val < 16 →
    ∃ t u, exec (.call nnn) s = .next t ∧ exec .ret t = .next u ∧
      u.pc = s.pc + 2 ∧ u.sp = s.sp ∧ (∀ k, k < s.sp.val → u.stack[k]? = s.stack[k]?) ∧
      Keeps { stack := True } s u

/-- 40_control.md rules R82 and R84: the jumps. The target of `JP V0` is not reduced to 12 bits, and a `JP` to
its own address is a fixed point. -/
def Obligations.JumpsSetPc : Prop :=
  ∀ (nnn : Addr12) (s : State),
    (∃ t, exec (.jp nnn) s = .next t ∧ t.pc.toNat = nnn.toNat ∧ Keeps {} s t) ∧
    (s.pc.toNat = nnn.toNat → exec (.jp nnn) s = .next s) ∧
    (∃ t, exec (.jpV0 nnn) s = .next t ∧ t.pc.toNat = nnn.toNat + (s.readV 0).toNat ∧
      Keeps {} s t)

/-- 40_control.md rules R85 to R88: the four skips on register operands. -/
def Obligations.RegisterSkips : Prop :=
  ∀ (x y : RegIdx) (nn : Byte) (s : State),
    (∃ t, exec (.seImm x nn) s = .next t ∧
      t.pc = (if s.readV x = nn then s.pc + 4 else s.pc + 2) ∧ Keeps {} s t) ∧
    (∃ t, exec (.sneImm x nn) s = .next t ∧
      t.pc = (if s.readV x = nn then s.pc + 2 else s.pc + 4) ∧ Keeps {} s t) ∧
    (∃ t, exec (.seReg x y) s = .next t ∧
      t.pc = (if s.readV x = s.readV y then s.pc + 4 else s.pc + 2) ∧ Keeps {} s t) ∧
    (∃ t, exec (.sneReg x y) s = .next t ∧
      t.pc = (if s.readV x = s.readV y then s.pc + 2 else s.pc + 4) ∧ Keeps {} s t)

/-! ## Arithmetic and logic (41_alu.md) -/

/-- 41_alu.md rules R100 and R102, 44_keypad_timers.md rule R143: the register loads, `VF` written as plain data
when `X` is 15. -/
def Obligations.RegisterLoads : Prop :=
  ∀ (x y : RegIdx) (nn : Byte) (s : State),
    (∃ t, exec (.ldImm x nn) s = .next t ∧ t.readV x = nn ∧ t.pc = s.pc + 2 ∧
      Keeps { regs := fun r => r = x } s t) ∧
    (∃ t, exec (.ldReg x y) s = .next t ∧ t.readV x = s.readV y ∧ t.pc = s.pc + 2 ∧
      Keeps { regs := fun r => r = x } s t) ∧
    (∃ t, exec (.ldVxDT x) s = .next t ∧ t.readV x = s.dt ∧ t.pc = s.pc + 2 ∧
      Keeps { regs := fun r => r = x } s t)

/-- 41_alu.md rule R101: the sum wraps, and no flag is written (decision D18). -/
def Obligations.AddImmediateWraps : Prop :=
  ∀ (x : RegIdx) (nn : Byte) (s : State), ∃ t, exec (.addImm x nn) s = .next t ∧
    (t.readV x).toNat = ((s.readV x).toNat + nn.toNat) % 256 ∧ t.pc = s.pc + 2 ∧
    Keeps { regs := fun r => r = x } s t

/-- 41_alu.md rules R103 to R105: bitwise operations, with no flag written (decision D18). -/
def Obligations.LogicOperations : Prop :=
  ∀ (x y : RegIdx) (s : State),
    (∃ t, exec (.or x y) s = .next t ∧ t.readV x = s.readV x ||| s.readV y ∧ t.pc = s.pc + 2 ∧
      Keeps { regs := fun r => r = x } s t) ∧
    (∃ t, exec (.and x y) s = .next t ∧ t.readV x = s.readV x &&& s.readV y ∧ t.pc = s.pc + 2 ∧
      Keeps { regs := fun r => r = x } s t) ∧
    (∃ t, exec (.xor x y) s = .next t ∧ t.readV x = s.readV x ^^^ s.readV y ∧ t.pc = s.pc + 2 ∧
      Keeps { regs := fun r => r = x } s t)

/-- 41_alu.md rule R106: the sum wraps, `VF` is the carry and is written last. -/
def Obligations.AddRegisterSetsCarry : Prop :=
  ∀ (x y : RegIdx) (s : State), ∃ t, exec (.addReg x y) s = .next t ∧
    (x ≠ 15 → (t.readV x).toNat = ((s.readV x).toNat + (s.readV y).toNat) % 256) ∧
    t.readV 15 = (if 255 < (s.readV x).toNat + (s.readV y).toNat then 1 else 0) ∧
    t.pc = s.pc + 2 ∧ Keeps { regs := fun r => r = x ∨ r = 15 } s t

/-- 41_alu.md rules R107 and R109: the difference wraps, `VF` is 1 for no borrow and is written last; `SUBN`
swaps the roles of its operands. -/
def Obligations.SubtractsSetNoBorrow : Prop :=
  ∀ (x y : RegIdx) (s : State),
    (∃ t, exec (.sub x y) s = .next t ∧
      (x ≠ 15 → (t.readV x).toNat = ((s.readV x).toNat + 256 - (s.readV y).toNat) % 256) ∧
      t.readV 15 = (if (s.readV y).toNat ≤ (s.readV x).toNat then 1 else 0) ∧
      t.pc = s.pc + 2 ∧ Keeps { regs := fun r => r = x ∨ r = 15 } s t) ∧
    (∃ t, exec (.subn x y) s = .next t ∧
      (x ≠ 15 → (t.readV x).toNat = ((s.readV y).toNat + 256 - (s.readV x).toNat) % 256) ∧
      t.readV 15 = (if (s.readV x).toNat ≤ (s.readV y).toNat then 1 else 0) ∧
      t.pc = s.pc + 2 ∧ Keeps { regs := fun r => r = x ∨ r = 15 } s t)

/-- 41_alu.md rules R108 and R110: shifts by one of `V[X]`, `VF` the bit shifted out and written last; `Y` has
no effect. -/
def Obligations.ShiftsMoveOneBitToVf : Prop :=
  ∀ (x y : RegIdx) (s : State),
    (∃ t, exec (.shr x y) s = .next t ∧
      (x ≠ 15 → (t.readV x).toNat = (s.readV x).toNat / 2) ∧
      (t.readV 15).toNat = (s.readV x).toNat % 2 ∧
      t.pc = s.pc + 2 ∧ Keeps { regs := fun r => r = x ∨ r = 15 } s t) ∧
    (∃ t, exec (.shl x y) s = .next t ∧
      (x ≠ 15 → (t.readV x).toNat = (s.readV x).toNat * 2 % 256) ∧
      (t.readV 15).toNat = (s.readV x).toNat / 128 ∧
      t.pc = s.pc + 2 ∧ Keeps { regs := fun r => r = x ∨ r = 15 } s t) ∧
    ∀ z, exec (.shr x z) s = exec (.shr x y) s ∧ exec (.shl x z) s = exec (.shl x y) s

/-- 41_alu.md rule R111: `RND` writes the free byte of its draw, masked; the draw is taken, so that the next one
is another. The statement holds whatever the free byte is (decision D24; log entry 1). -/
def Obligations.RndMasksAFreshDraw : Prop :=
  ∀ (x : RegIdx) (nn : Byte) (s : State), ∃ t, exec (.rnd x nn) s = .next t ∧
    t.readV x = Config.freeByte s.draws &&& nn ∧ t.draws = s.draws + 1 ∧
    t.readV x &&& ~~~nn = 0 ∧ t.pc = s.pc + 2 ∧
    Keeps { regs := fun r => r = x, draws := True } s t

/-- 10_state.md rules R14, R15 and R29: after an instruction that sets the flag and does not fault, `VF` is 0 or
1, also where the instruction names `VF` as an operand; for `DRW` it is 1 exactly when a lit cell was turned
off. -/
def Obligations.FlagIsZeroOrOne : Prop :=
  ∀ (x y : RegIdx) (n : Nibble) (s t : State), s.fault = none → t.fault = none →
    (exec (.addReg x y) s = .next t ∨ exec (.sub x y) s = .next t ∨ exec (.shr x y) s = .next t ∨
      exec (.subn x y) s = .next t ∨ exec (.shl x y) s = .next t ∨
      exec (.drw x y n) s = .next t → t.readV 15 = 0 ∨ t.readV 15 = 1) ∧
    (exec (.drw x y n) s = .next t →
      (t.readV 15 = 1 ↔ ∃ cy cx, s.disp.cell cy cx = true ∧ t.disp.cell cy cx = false))

/-! ## Index register and memory (42_index_memory.md) -/

/-- 42_index_memory.md rules R120 and R122: the loads of `I`. The glyph address multiplies the whole byte. -/
def Obligations.IndexLoads : Prop :=
  ∀ (x : RegIdx) (nnn : Addr12) (s : State),
    (∃ t, exec (.ldI nnn) s = .next t ∧ t.i.toNat = nnn.toNat ∧ t.pc = s.pc + 2 ∧
      Keeps { index := True } s t) ∧
    (∃ t, exec (.ldF x) s = .next t ∧ t.i.toNat = 5 * (s.readV x).toNat ∧
      t.pc = s.pc + 2 ∧ Keeps { index := True } s t)

/-- 42_index_memory.md rule R121: the sum wraps at 2^16, and no flag is written (decision D16). -/
def Obligations.AddToIndexWraps : Prop :=
  ∀ (x : RegIdx) (s : State), ∃ t, exec (.addI x) s = .next t ∧
    t.i.toNat = (s.i.toNat + (s.readV x).toNat) % 65536 ∧
    t.pc = s.pc + 2 ∧ Keeps { index := True } s t

/-- 42_index_memory.md rule R123: the three decimal digits of `V[X]` go to `I`, `I + 1` and `I + 2`, every other
byte stays, and the whole range is checked before any byte is written (20_memory.md rule R53). -/
def Obligations.BcdStoresThreeDigits : Prop :=
  ∀ (x : RegIdx) (s : State),
    (s.i.toNat + 2 < 4096 → ∃ t, exec (.ldB x) s = .next t ∧
      (Memory.read t.mem s.base).toNat = (s.readV x).toNat / 100 ∧
      (Memory.read t.mem (s.base + 1)).toNat = (s.readV x).toNat / 10 % 10 ∧
      (Memory.read t.mem (s.base + 2)).toNat = (s.readV x).toNat % 10 ∧
      t.pc = s.pc + 2 ∧ Keeps { bytes := fun a => s.base ≤ a ∧ a < s.base + 3 } s t) ∧
    (4096 ≤ s.i.toNat + 2 → s.fault = none →
      exec (.ldB x) s = .next (s.faulted (.memoryBounds (max s.i.toNat 4096))))

/-- 42_index_memory.md rule R124: `V[0]` to `V[X]` go to memory from `I` up, every other byte and `I` stay
(decision D17), and the whole range is checked before any byte is written (20_memory.md rule R53, decision D10).
-/
def Obligations.BulkStoreCopiesRegisters : Prop :=
  ∀ (x : RegIdx) (s : State),
    (s.i.toNat + x.toNat < 4096 → ∃ t, exec (.ldMemVx x) s = .next t ∧
      (∀ r : RegIdx, r.toNat ≤ x.toNat → Memory.read t.mem (s.base + r.toNat) = s.readV r) ∧
      t.pc = s.pc + 2 ∧
      Keeps { bytes := fun a => s.base ≤ a ∧ a < s.base + bulkCount x } s t) ∧
    (4096 ≤ s.i.toNat + x.toNat → s.fault = none →
      exec (.ldMemVx x) s = .next (s.faulted (.memoryBounds (max s.i.toNat 4096))))

/-- 42_index_memory.md rule R125: `V[0]` to `V[X]` are loaded from memory from `I` up, the registers above `X`
and `I` stay (decision D17), and the whole range is checked before any register is written. -/
def Obligations.BulkLoadCopiesMemory : Prop :=
  ∀ (x : RegIdx) (s : State),
    (s.i.toNat + x.toNat < 4096 → ∃ t, exec (.ldVxMem x) s = .next t ∧
      (∀ r : RegIdx, r.toNat ≤ x.toNat → t.readV r = Memory.read s.mem (s.base + r.toNat)) ∧
      t.pc = s.pc + 2 ∧ Keeps { regs := fun r => r.toNat ≤ x.toNat } s t) ∧
    (4096 ≤ s.i.toNat + x.toNat → s.fault = none →
      exec (.ldVxMem x) s = .next (s.faulted (.memoryBounds (max s.i.toNat 4096))))

/-- 20_memory.md rule R49: a store is seen by the next fetch. When a bulk store of two or more registers lands
on the instruction that follows it, the next step executes the word those registers hold (decision D23). -/
def Obligations.StoreIsSeenByTheNextFetch : Prop :=
  ∀ (x : RegIdx) (s : State) (i : Instr), s.fault = none → 1 ≤ x.toNat →
    s.i.toNat + x.toNat < 4096 → s.pc + 2 = s.i →
    decode (s.readV 0 ++ s.readV 1) = .ok i →
    ∃ t, exec (.ldMemVx x) s = .next t ∧ step t = exec i t

/-- 42_index_memory.md rules R124 and R125 (decision D17: `I` is kept): a bulk load of the same registers after
a bulk store brings every one of them back, whatever they were changed to in between. -/
def Obligations.BulkLoadUndoesBulkStore : Prop :=
  ∀ (x : RegIdx) (s : State), s.i.toNat + x.toNat < 4096 →
    ∃ t, exec (.ldMemVx x) s = .next t ∧
      ∀ bs : List Byte, bs.length ≤ 16 → ∃ u, exec (.ldVxMem x) (t.loadRegs 0 bs) = .next u ∧
        (∀ r : RegIdx, r.toNat ≤ x.toNat → u.readV r = s.readV r) ∧ u.mem = t.mem

/-! ## Display (43_display.md) -/

/-- 43_display.md rule R130: `CLS` turns every cell off and changes nothing else. -/
def Obligations.ClsClearsEveryCell : Prop :=
  ∀ s : State, ∃ t, exec .cls s = .next t ∧ (∀ y x, t.disp.cell y x = false) ∧
    t.pc = s.pc + 2 ∧ Keeps { display := True } s t

/-- 43_display.md rule R131, free of its loops: exactly the cells for which the sprite has a 1 bit are toggled,
with wrap on both axes; `VF` is 1 if one of them was lit before, else 0; the operands are those before the
instruction, `VF` among them; and a sprite past the end of memory faults with no cell changed. With no rows
nothing is read, nothing is drawn and `VF` is 0, whatever `I` holds. The order of operands and flag and the case
of no rows are decisions D19 and D30. -/
def Obligations.DrwTogglesExactlyTheSprite : Prop :=
  ∀ (x y : RegIdx) (n : Nibble) (s : State),
    (n.toNat = 0 ∨ s.i.toNat + n.toNat ≤ 4096 → ∃ t, exec (.drw x y n) s = .next t ∧
      (∀ cy cx, (spriteBit s x y n cy cx → t.disp.cell cy cx = !(s.disp.cell cy cx)) ∧
        (¬ spriteBit s x y n cy cx → t.disp.cell cy cx = s.disp.cell cy cx)) ∧
      ((∃ cy cx, spriteBit s x y n cy cx ∧ s.disp.cell cy cx = true) → t.readV 15 = 1) ∧
      ((¬ ∃ cy cx, spriteBit s x y n cy cx ∧ s.disp.cell cy cx = true) → t.readV 15 = 0) ∧
      t.pc = s.pc + 2 ∧ Keeps { regs := fun r => r = 15, display := True } s t) ∧
    (n.toNat ≠ 0 → 4096 < s.i.toNat + n.toNat → s.fault = none →
      exec (.drw x y n) s = .next (s.faulted (.memoryBounds (max s.i.toNat 4096))))

/-- 43_display.md rule R131: drawing is its own inverse. The same `DRW` twice restores every cell. The second
sets `VF` to 1 exactly when the sprite has a 1 bit over a cell that was off before the first (the rule's remark
that any 1 bit is enough holds only then; log entry 11). `X` and `Y` are not 15, since the first draw writes
`VF` and the two would not have the same operands. -/
def Obligations.DrawingTwiceRestores : Prop :=
  ∀ (x y : RegIdx) (n : Nibble) (s : State), x ≠ 15 → y ≠ 15 →
    n.toNat = 0 ∨ s.i.toNat + n.toNat ≤ 4096 →
    ∃ t u, exec (.drw x y n) s = .next t ∧ exec (.drw x y n) t = .next u ∧
      u.disp = s.disp ∧
      (u.readV 15 = 1 ↔ ∃ cy cx, spriteBit s x y n cy cx ∧ s.disp.cell cy cx = false)

/-! ## Keypad and timers (44_keypad_timers.md) -/

/-- 44_keypad_timers.md rules R140 and R141: the skips on a key; a number above 15 faults with nothing changed
(decision D9). -/
def Obligations.KeySkips : Prop :=
  ∀ (x : RegIdx) (s : State),
    ((s.readV x).toNat ≤ 15 →
      (∃ t, exec (.skp x) s = .next t ∧
        t.pc = (if s.key? (s.readV x).toNat = some true then s.pc + 4 else s.pc + 2) ∧
        Keeps {} s t) ∧
      (∃ t, exec (.sknp x) s = .next t ∧
        t.pc = (if s.key? (s.readV x).toNat = some true then s.pc + 2 else s.pc + 4) ∧
        Keeps {} s t)) ∧
    (15 < (s.readV x).toNat → s.fault = none →
      exec (.skp x) s = .next (s.faulted (.keyIndexRange (s.readV x))) ∧
      exec (.sknp x) s = .next (s.faulted (.keyIndexRange (s.readV x))))

/-- 44_keypad_timers.md rule R142: with a key down the least index goes to `V[X]`; with none down the step
completes and the state is as it was, so the same instruction is fetched again. -/
def Obligations.WaitForKeyTakesTheLeast : Prop :=
  ∀ (x : RegIdx) (s : State),
    (∀ k, s.key? k = some true → (∀ j, j < k → s.key? j = some false) →
      ∃ t, exec (.ldVxK x) s = .next t ∧ (t.readV x).toNat = k ∧ t.pc = s.pc + 2 ∧
        Keeps { regs := fun r => r = x } s t) ∧
    ((∀ k, k < 16 → s.key? k = some false) → exec (.ldVxK x) s = .next s)

/-- 44_keypad_timers.md rules R144 and R145: the timer writes; the sound is on exactly when the value is not 0.
-/
def Obligations.TimerWrites : Prop :=
  ∀ (x : RegIdx) (s : State),
    (∃ t, exec (.ldDTVx x) s = .next t ∧ t.dt = s.readV x ∧ t.pc = s.pc + 2 ∧
      Keeps { delay := True } s t) ∧
    (∃ t, exec (.ldSTVx x) s = .next t ∧ t.st = s.readV x ∧
      (t.soundActive = true ↔ s.readV x ≠ 0) ∧ t.pc = s.pc + 2 ∧ Keeps { sound := True } s t)
end

