-- ==== Sys2Proof/Laws/Config.lean ====
section
/-! SUPPORT. The parameters of Config are those of the types and tables of the model (00_scope.md rule R5):
the widths are the widths of `Byte` and `Word`, a register field selects every register and no other, and the
glyph table has its size. -/

namespace Sys2Proof

/-- The widths of `Byte` (`REG_WIDTH`, `TIMER_WIDTH`) and of `Word` (`PC_WIDTH`, `I_WIDTH`). -/
theorem Config.widths : Byte = BitVec Config.regWidth ∧ Byte = BitVec Config.timerWidth ∧
    Word = BitVec Config.pcWidth ∧ Word = BitVec Config.indexWidth := ⟨rfl, rfl, rfl, rfl⟩

/-- A four-bit field has a value for each general register and for no more. -/
theorem Config.numRegs_eq : Config.numRegs = 2 ^ 4 := rfl

/-- The glyph table is `GLYPH_BYTES` bytes for each glyph. -/
theorem Config.glyphTable_length : Config.glyphTable.length = Config.glyphBytes * Config.glyphCount := rfl

/-- The reset content of an address, with the table at its base 0. -/
theorem Config.resetByte_eq (a : Nat) : Config.resetByte a = Config.glyphTable.getD a 0 := by
  simp [Config.resetByte, Config.glyphBase]

/-- The address of a glyph is five times the whole byte (42_index_memory.md rule R122). -/
theorem Machine.glyphAddress_toNat (b : Byte) : (Machine.glyphAddress b).toNat = 5 * b.toNat := by
  have hb := b.isLt
  change (0 + 5 * b.toNat) % 2 ^ 16 = 5 * b.toNat
  omega

/-- The cells of the display, row by row. -/
theorem Config.dispCells : Config.dispHeight * Config.dispWidth = 2048 := rfl

end Sys2Proof
end

