-- ==== Sys2Proof/Laws/Decode.lean ====
section
/-! SUPPORT. The fields of each format, and a word as the join of its fields (30_encoding.md rules R61 to
R63). -/

namespace Sys2Proof

@[simp] theorem fieldFamily_formatA (op : Nibble) (nnn : Addr12) :
    fieldFamily (formatA op nnn) = op := by
  apply BitVec.eq_of_getLsbD_eq
  intro k hk
  simp only [fieldFamily, formatA, BitVec.getLsbD_append, BitVec.getLsbD_extractLsb']
  have h1 : ¬ 12 + k < 12 := by omega
  simp [h1, hk]

@[simp] theorem fieldNNN_formatA (op : Nibble) (nnn : Addr12) : fieldNNN (formatA op nnn) = nnn := by
  apply BitVec.eq_of_getLsbD_eq
  intro k hk
  simp only [fieldNNN, formatA, BitVec.getLsbD_append, BitVec.getLsbD_extractLsb']
  simp [hk]

@[simp] theorem fieldFamily_formatI (op : Nibble) (x : RegIdx) (nn : Byte) :
    fieldFamily (formatI op x nn) = op := by
  apply BitVec.eq_of_getLsbD_eq
  intro k hk
  simp only [fieldFamily, formatI, BitVec.getLsbD_append, BitVec.getLsbD_extractLsb']
  have h1 : ¬ 12 + k < 8 := by omega
  have h2 : ¬ 12 + k - 8 < 4 := by omega
  have h3 : 12 + k - 8 - 4 = k := by omega
  simp [h1, h2, h3, hk]

@[simp] theorem fieldX_formatI (op : Nibble) (x : RegIdx) (nn : Byte) :
    fieldX (formatI op x nn) = x := by
  apply BitVec.eq_of_getLsbD_eq
  intro k hk
  simp only [fieldX, formatI, BitVec.getLsbD_append, BitVec.getLsbD_extractLsb']
  have h1 : ¬ 8 + k < 8 := by omega
  simp [h1, hk]

@[simp] theorem fieldNN_formatI (op : Nibble) (x : RegIdx) (nn : Byte) :
    fieldNN (formatI op x nn) = nn := by
  apply BitVec.eq_of_getLsbD_eq
  intro k hk
  simp only [fieldNN, formatI, BitVec.getLsbD_append, BitVec.getLsbD_extractLsb']
  simp [hk]

@[simp] theorem fieldFamily_formatR (op : Nibble) (x y : RegIdx) (n : Nibble) :
    fieldFamily (formatR op x y n) = op := fieldFamily_formatI op x (y ++ n)

@[simp] theorem fieldX_formatR (op : Nibble) (x y : RegIdx) (n : Nibble) :
    fieldX (formatR op x y n) = x := fieldX_formatI op x (y ++ n)

@[simp] theorem fieldY_formatR (op : Nibble) (x y : RegIdx) (n : Nibble) :
    fieldY (formatR op x y n) = y := by
  apply BitVec.eq_of_getLsbD_eq
  intro k hk
  simp only [fieldY, formatR, BitVec.getLsbD_append, BitVec.getLsbD_extractLsb']
  have h1 : 4 + k < 8 := by omega
  simp [h1, hk]

@[simp] theorem fieldN_formatR (op : Nibble) (x y : RegIdx) (n : Nibble) :
    fieldN (formatR op x y n) = n := by
  apply BitVec.eq_of_getLsbD_eq
  intro k hk
  simp only [fieldN, formatR, BitVec.getLsbD_append, BitVec.getLsbD_extractLsb']
  have h1 : k < 8 := by omega
  simp [h1, hk]

/-- A word is its leading field and its twelve-bit immediate. -/
theorem formatA_fields (w : Word) : formatA (fieldFamily w) (fieldNNN w) = w := by
  apply BitVec.eq_of_getLsbD_eq
  intro k hk
  simp only [formatA, fieldFamily, fieldNNN, BitVec.getLsbD_append, BitVec.getLsbD_extractLsb']
  by_cases h : k < 12
  · simp [h]
  · have h1 : k - 12 < 4 := by omega
    have h2 : 12 + (k - 12) = k := by omega
    simp [h, h1, h2]

/-- A word is its leading field, `X` and its low byte. -/
theorem formatI_fields (w : Word) : formatI (fieldFamily w) (fieldX w) (fieldNN w) = w := by
  apply BitVec.eq_of_getLsbD_eq
  intro k hk
  simp only [formatI, fieldFamily, fieldX, fieldNN, BitVec.getLsbD_append,
    BitVec.getLsbD_extractLsb']
  by_cases h : k < 8
  · simp [h]
  · by_cases h4 : k - 8 < 4
    · have h2 : 8 + (k - 8) = k := by omega
      simp [h, h4, h2]
    · have h1 : k - 8 - 4 < 4 := by omega
      have h2 : 12 + (k - 8 - 4) = k := by omega
      simp [h, h4, h1, h2]

/-- The low byte of a word is `Y` and `N`. -/
theorem fieldNN_eq_append (w : Word) : fieldNN w = (fieldY w ++ fieldN w : Byte) := by
  apply BitVec.eq_of_getLsbD_eq
  intro k hk
  simp only [fieldNN, fieldY, fieldN, BitVec.getLsbD_append, BitVec.getLsbD_extractLsb']
  by_cases h : k < 4
  · simp [h, hk]
  · have h1 : k - 4 < 4 := by omega
    have h2 : 4 + (k - 4) = k := by omega
    simp [h, h1, h2, hk]

/-- A word is its four nibbles. -/
theorem formatR_fields (w : Word) :
    formatR (fieldFamily w) (fieldX w) (fieldY w) (fieldN w) = w := by
  have h := formatI_fields w
  rw [fieldNN_eq_append] at h
  exact h

/-! ### What a mask of the decode map keeps (30_encoding.md rule R64) -/

theorem formatI_inj {op op' : Nibble} {x x' : RegIdx} {nn nn' : Byte} :
    formatI op x nn = formatI op' x' nn' ↔ op = op' ∧ x = x' ∧ nn = nn' := by
  constructor
  · intro h
    exact ⟨by simpa using congrArg fieldFamily h, by simpa using congrArg fieldX h,
      by simpa using congrArg fieldNN h⟩
  · rintro ⟨rfl, rfl, rfl⟩
    rfl

theorem formatR_inj {op op' : Nibble} {x x' y y' : RegIdx} {n n' : Nibble} :
    formatR op x y n = formatR op' x' y' n' ↔ op = op' ∧ x = x' ∧ y = y' ∧ n = n' := by
  constructor
  · intro h
    exact ⟨by simpa using congrArg fieldFamily h, by simpa using congrArg fieldX h,
      by simpa using congrArg fieldY h, by simpa using congrArg fieldN h⟩
  · rintro ⟨rfl, rfl, rfl, rfl⟩
    rfl

theorem nibble_and_ones (a : Nibble) : a &&& 15#4 = a := by
  rw [show (15#4 : Nibble) = BitVec.allOnes 4 from rfl, BitVec.and_allOnes]

/-- Masking a word of four nibbles masks each nibble. -/
theorem formatR_and (a b c d a' b' c' d' : Nibble) :
    formatR a b c d &&& formatR a' b' c' d' =
      formatR (a &&& a') (b &&& b') (c &&& c') (d &&& d') := by
  change ((a ++ b) ++ (c ++ d)) &&& ((a' ++ b') ++ (c' ++ d')) =
    ((a &&& a') ++ (b &&& b')) ++ ((c &&& c') ++ (d &&& d'))
  rw [BitVec.and_append, BitVec.and_append, BitVec.and_append]

/-- The mask 0xF000 compares the leading field. -/
theorem selects_family {w r : Word} (hr : r = formatR (fieldFamily r) 0 0 0) :
    (MapRow.mk 0xF000 r).selects w = true ↔ fieldFamily w = fieldFamily r := by
  have hw : w &&& 0xF000 = formatR (fieldFamily w) 0 0 0 := by
    conv_lhs => rw [← formatR_fields w, show (0xF000 : Word) = formatR 15 0 0 0 from rfl]
    simp [formatR_and, nibble_and_ones]
  simp only [MapRow.selects, beq_iff_eq, hw]
  rw [hr, formatR_inj]
  simp

/-- The mask 0xF00F compares the leading and the lowest field. -/
theorem selects_function {w r : Word} (hr : r = formatR (fieldFamily r) 0 0 (fieldN r)) :
    (MapRow.mk 0xF00F r).selects w = true ↔ fieldFamily w = fieldFamily r ∧ fieldN w = fieldN r := by
  have hw : w &&& 0xF00F = formatR (fieldFamily w) 0 0 (fieldN w) := by
    conv_lhs => rw [← formatR_fields w, show (0xF00F : Word) = formatR 15 0 0 15 from rfl]
    simp [formatR_and, nibble_and_ones]
  simp only [MapRow.selects, beq_iff_eq, hw]
  rw [hr, formatR_inj]
  simp

/-- The mask 0xF0FF compares the leading field and the low byte. -/
theorem selects_byte {w r : Word} (hr : r = formatI (fieldFamily r) 0 (fieldNN r)) :
    (MapRow.mk 0xF0FF r).selects w = true ↔
      fieldFamily w = fieldFamily r ∧ fieldNN w = fieldNN r := by
  have hw : w &&& 0xF0FF = formatI (fieldFamily w) 0 (fieldNN w) := by
    rw [fieldNN_eq_append]
    conv_lhs => rw [← formatR_fields w, show (0xF0FF : Word) = formatR 15 0 15 15 from rfl]
    simp [formatR_and, nibble_and_ones]
    simp [formatR, formatI]
  simp only [MapRow.selects, beq_iff_eq, hw]
  rw [hr, formatI_inj]
  simp

/-- The mask 0xFFFF compares the whole word. -/
theorem selects_fixed {w r : Word} : (MapRow.mk 0xFFFF r).selects w = true ↔ w = r := by
  rw [MapRow.selects, show (0xFFFF : Word) = BitVec.allOnes 16 from rfl, BitVec.and_allOnes,
    beq_iff_eq]

/-- The bytes of a word, joined, are the word (20_memory.md rule R40). -/
theorem opcodeOf_wordBytes (w : Word) :
    opcodeOf (w.extractLsb' 8 8) (w.extractLsb' 0 8) = w := by
  apply BitVec.eq_of_getLsbD_eq
  intro k hk
  simp only [opcodeOf, BitVec.getLsbD_append, BitVec.getLsbD_extractLsb']
  by_cases h : k < 8
  · simp [h]
  · have h1 : k - 8 < 8 := by omega
    have h2 : 8 + (k - 8) = k := by omega
    simp [h, h1, h2]

/-- The decoder answers an instruction, or rejects the word itself by name. -/
theorem decode_cases (w : Word) :
    (∃ i, decode? w = some i ∧ decode w = .ok i) ∨
      (decode? w = none ∧ decode w = .error (.unrecognized w)) := by
  cases h : decode? w with
  | none => exact .inr ⟨rfl, by simp [decode, h]⟩
  | some i => exact .inl ⟨i, rfl, by simp [decode, h]⟩

theorem decode_eq_ok {w : Word} {i : Instr} : decode w = .ok i ↔ decode? w = some i := by
  rcases decode_cases w with ⟨j, h1, h2⟩ | ⟨h1, h2⟩ <;> simp [h1, h2]

end Sys2Proof
end

