-- ==== Sys2Proof/Laws/State.lean ====
section
/-! SUPPORT. What each named update of the state does to each field: one lemma per field per update, so
that no proof unfolds a record update. -/

namespace Sys2Proof.Machine

/-! ### writeV -/

@[simp] theorem State.writeV_pc (s : State) (x : RegIdx) (b : Byte) :
    (s.writeV x b).pc = s.pc := rfl
@[simp] theorem State.writeV_mem (s : State) (x : RegIdx) (b : Byte) :
    (s.writeV x b).mem = s.mem := rfl
@[simp] theorem State.writeV_v (s : State) (x : RegIdx) (b : Byte) :
    (s.writeV x b).v = s.v.set x.toNat b x.isLt := rfl
@[simp] theorem State.writeV_i (s : State) (x : RegIdx) (b : Byte) : (s.writeV x b).i = s.i := rfl
@[simp] theorem State.writeV_stack (s : State) (x : RegIdx) (b : Byte) :
    (s.writeV x b).stack = s.stack := rfl
@[simp] theorem State.writeV_sp (s : State) (x : RegIdx) (b : Byte) :
    (s.writeV x b).sp = s.sp := rfl
@[simp] theorem State.writeV_key (s : State) (x : RegIdx) (b : Byte) :
    (s.writeV x b).key = s.key := rfl
@[simp] theorem State.writeV_dt (s : State) (x : RegIdx) (b : Byte) :
    (s.writeV x b).dt = s.dt := rfl
@[simp] theorem State.writeV_st (s : State) (x : RegIdx) (b : Byte) :
    (s.writeV x b).st = s.st := rfl
@[simp] theorem State.writeV_disp (s : State) (x : RegIdx) (b : Byte) :
    (s.writeV x b).disp = s.disp := rfl
@[simp] theorem State.writeV_fault (s : State) (x : RegIdx) (b : Byte) :
    (s.writeV x b).fault = s.fault := rfl
@[simp] theorem State.writeV_draws (s : State) (x : RegIdx) (b : Byte) :
    (s.writeV x b).draws = s.draws := rfl

/-! ### setPC -/

@[simp] theorem State.setPC_pc (s : State) (w : Word) : (s.setPC w).pc = w := rfl
@[simp] theorem State.setPC_mem (s : State) (w : Word) : (s.setPC w).mem = s.mem := rfl
@[simp] theorem State.setPC_v (s : State) (w : Word) : (s.setPC w).v = s.v := rfl
@[simp] theorem State.setPC_i (s : State) (w : Word) : (s.setPC w).i = s.i := rfl
@[simp] theorem State.setPC_stack (s : State) (w : Word) : (s.setPC w).stack = s.stack := rfl
@[simp] theorem State.setPC_sp (s : State) (w : Word) : (s.setPC w).sp = s.sp := rfl
@[simp] theorem State.setPC_key (s : State) (w : Word) : (s.setPC w).key = s.key := rfl
@[simp] theorem State.setPC_dt (s : State) (w : Word) : (s.setPC w).dt = s.dt := rfl
@[simp] theorem State.setPC_st (s : State) (w : Word) : (s.setPC w).st = s.st := rfl
@[simp] theorem State.setPC_disp (s : State) (w : Word) : (s.setPC w).disp = s.disp := rfl
@[simp] theorem State.setPC_fault (s : State) (w : Word) : (s.setPC w).fault = s.fault := rfl
@[simp] theorem State.setPC_draws (s : State) (w : Word) : (s.setPC w).draws = s.draws := rfl

/-! ### advance -/

@[simp] theorem State.advance_pc (s : State) : (s.advance).pc = s.pc + 2 := rfl
@[simp] theorem State.advance_mem (s : State) : (s.advance).mem = s.mem := rfl
@[simp] theorem State.advance_v (s : State) : (s.advance).v = s.v := rfl
@[simp] theorem State.advance_i (s : State) : (s.advance).i = s.i := rfl
@[simp] theorem State.advance_stack (s : State) : (s.advance).stack = s.stack := rfl
@[simp] theorem State.advance_sp (s : State) : (s.advance).sp = s.sp := rfl
@[simp] theorem State.advance_key (s : State) : (s.advance).key = s.key := rfl
@[simp] theorem State.advance_dt (s : State) : (s.advance).dt = s.dt := rfl
@[simp] theorem State.advance_st (s : State) : (s.advance).st = s.st := rfl
@[simp] theorem State.advance_disp (s : State) : (s.advance).disp = s.disp := rfl
@[simp] theorem State.advance_fault (s : State) : (s.advance).fault = s.fault := rfl
@[simp] theorem State.advance_draws (s : State) : (s.advance).draws = s.draws := rfl

/-! ### rewind -/

@[simp] theorem State.rewind_pc (s : State) : (s.rewind).pc = s.pc - 2 := rfl
@[simp] theorem State.rewind_mem (s : State) : (s.rewind).mem = s.mem := rfl
@[simp] theorem State.rewind_v (s : State) : (s.rewind).v = s.v := rfl
@[simp] theorem State.rewind_i (s : State) : (s.rewind).i = s.i := rfl
@[simp] theorem State.rewind_stack (s : State) : (s.rewind).stack = s.stack := rfl
@[simp] theorem State.rewind_sp (s : State) : (s.rewind).sp = s.sp := rfl
@[simp] theorem State.rewind_key (s : State) : (s.rewind).key = s.key := rfl
@[simp] theorem State.rewind_dt (s : State) : (s.rewind).dt = s.dt := rfl
@[simp] theorem State.rewind_st (s : State) : (s.rewind).st = s.st := rfl
@[simp] theorem State.rewind_disp (s : State) : (s.rewind).disp = s.disp := rfl
@[simp] theorem State.rewind_fault (s : State) : (s.rewind).fault = s.fault := rfl
@[simp] theorem State.rewind_draws (s : State) : (s.rewind).draws = s.draws := rfl

/-! ### setI -/

@[simp] theorem State.setI_pc (s : State) (w : Word) : (s.setI w).pc = s.pc := rfl
@[simp] theorem State.setI_mem (s : State) (w : Word) : (s.setI w).mem = s.mem := rfl
@[simp] theorem State.setI_v (s : State) (w : Word) : (s.setI w).v = s.v := rfl
@[simp] theorem State.setI_i (s : State) (w : Word) : (s.setI w).i = w := rfl
@[simp] theorem State.setI_stack (s : State) (w : Word) : (s.setI w).stack = s.stack := rfl
@[simp] theorem State.setI_sp (s : State) (w : Word) : (s.setI w).sp = s.sp := rfl
@[simp] theorem State.setI_key (s : State) (w : Word) : (s.setI w).key = s.key := rfl
@[simp] theorem State.setI_dt (s : State) (w : Word) : (s.setI w).dt = s.dt := rfl
@[simp] theorem State.setI_st (s : State) (w : Word) : (s.setI w).st = s.st := rfl
@[simp] theorem State.setI_disp (s : State) (w : Word) : (s.setI w).disp = s.disp := rfl
@[simp] theorem State.setI_fault (s : State) (w : Word) : (s.setI w).fault = s.fault := rfl
@[simp] theorem State.setI_draws (s : State) (w : Word) : (s.setI w).draws = s.draws := rfl

/-! ### setDT -/

@[simp] theorem State.setDT_pc (s : State) (b : Byte) : (s.setDT b).pc = s.pc := rfl
@[simp] theorem State.setDT_mem (s : State) (b : Byte) : (s.setDT b).mem = s.mem := rfl
@[simp] theorem State.setDT_v (s : State) (b : Byte) : (s.setDT b).v = s.v := rfl
@[simp] theorem State.setDT_i (s : State) (b : Byte) : (s.setDT b).i = s.i := rfl
@[simp] theorem State.setDT_stack (s : State) (b : Byte) : (s.setDT b).stack = s.stack := rfl
@[simp] theorem State.setDT_sp (s : State) (b : Byte) : (s.setDT b).sp = s.sp := rfl
@[simp] theorem State.setDT_key (s : State) (b : Byte) : (s.setDT b).key = s.key := rfl
@[simp] theorem State.setDT_dt (s : State) (b : Byte) : (s.setDT b).dt = b := rfl
@[simp] theorem State.setDT_st (s : State) (b : Byte) : (s.setDT b).st = s.st := rfl
@[simp] theorem State.setDT_disp (s : State) (b : Byte) : (s.setDT b).disp = s.disp := rfl
@[simp] theorem State.setDT_fault (s : State) (b : Byte) : (s.setDT b).fault = s.fault := rfl
@[simp] theorem State.setDT_draws (s : State) (b : Byte) : (s.setDT b).draws = s.draws := rfl

/-! ### setST -/

@[simp] theorem State.setST_pc (s : State) (b : Byte) : (s.setST b).pc = s.pc := rfl
@[simp] theorem State.setST_mem (s : State) (b : Byte) : (s.setST b).mem = s.mem := rfl
@[simp] theorem State.setST_v (s : State) (b : Byte) : (s.setST b).v = s.v := rfl
@[simp] theorem State.setST_i (s : State) (b : Byte) : (s.setST b).i = s.i := rfl
@[simp] theorem State.setST_stack (s : State) (b : Byte) : (s.setST b).stack = s.stack := rfl
@[simp] theorem State.setST_sp (s : State) (b : Byte) : (s.setST b).sp = s.sp := rfl
@[simp] theorem State.setST_key (s : State) (b : Byte) : (s.setST b).key = s.key := rfl
@[simp] theorem State.setST_dt (s : State) (b : Byte) : (s.setST b).dt = s.dt := rfl
@[simp] theorem State.setST_st (s : State) (b : Byte) : (s.setST b).st = b := rfl
@[simp] theorem State.setST_disp (s : State) (b : Byte) : (s.setST b).disp = s.disp := rfl
@[simp] theorem State.setST_fault (s : State) (b : Byte) : (s.setST b).fault = s.fault := rfl
@[simp] theorem State.setST_draws (s : State) (b : Byte) : (s.setST b).draws = s.draws := rfl

/-! ### setDisp -/

@[simp] theorem State.setDisp_pc (s : State) (d : Display) : (s.setDisp d).pc = s.pc := rfl
@[simp] theorem State.setDisp_mem (s : State) (d : Display) : (s.setDisp d).mem = s.mem := rfl
@[simp] theorem State.setDisp_v (s : State) (d : Display) : (s.setDisp d).v = s.v := rfl
@[simp] theorem State.setDisp_i (s : State) (d : Display) : (s.setDisp d).i = s.i := rfl
@[simp] theorem State.setDisp_stack (s : State) (d : Display) : (s.setDisp d).stack = s.stack := rfl
@[simp] theorem State.setDisp_sp (s : State) (d : Display) : (s.setDisp d).sp = s.sp := rfl
@[simp] theorem State.setDisp_key (s : State) (d : Display) : (s.setDisp d).key = s.key := rfl
@[simp] theorem State.setDisp_dt (s : State) (d : Display) : (s.setDisp d).dt = s.dt := rfl
@[simp] theorem State.setDisp_st (s : State) (d : Display) : (s.setDisp d).st = s.st := rfl
@[simp] theorem State.setDisp_disp (s : State) (d : Display) : (s.setDisp d).disp = d := rfl
@[simp] theorem State.setDisp_fault (s : State) (d : Display) : (s.setDisp d).fault = s.fault := rfl
@[simp] theorem State.setDisp_draws (s : State) (d : Display) : (s.setDisp d).draws = s.draws := rfl

/-! ### store -/

@[simp] theorem State.store_pc (s : State) (a : Nat) (bs : List Byte) :
    (s.store a bs).pc = s.pc := rfl
@[simp] theorem State.store_mem (s : State) (a : Nat) (bs : List Byte) :
    (s.store a bs).mem = s.mem.writeBytes a bs := rfl
@[simp] theorem State.store_v (s : State) (a : Nat) (bs : List Byte) : (s.store a bs).v = s.v := rfl
@[simp] theorem State.store_i (s : State) (a : Nat) (bs : List Byte) : (s.store a bs).i = s.i := rfl
@[simp] theorem State.store_stack (s : State) (a : Nat) (bs : List Byte) :
    (s.store a bs).stack = s.stack := rfl
@[simp] theorem State.store_sp (s : State) (a : Nat) (bs : List Byte) :
    (s.store a bs).sp = s.sp := rfl
@[simp] theorem State.store_key (s : State) (a : Nat) (bs : List Byte) :
    (s.store a bs).key = s.key := rfl
@[simp] theorem State.store_dt (s : State) (a : Nat) (bs : List Byte) :
    (s.store a bs).dt = s.dt := rfl
@[simp] theorem State.store_st (s : State) (a : Nat) (bs : List Byte) :
    (s.store a bs).st = s.st := rfl
@[simp] theorem State.store_disp (s : State) (a : Nat) (bs : List Byte) :
    (s.store a bs).disp = s.disp := rfl
@[simp] theorem State.store_fault (s : State) (a : Nat) (bs : List Byte) :
    (s.store a bs).fault = s.fault := rfl
@[simp] theorem State.store_draws (s : State) (a : Nat) (bs : List Byte) :
    (s.store a bs).draws = s.draws := rfl

/-! ### tookDraw -/

@[simp] theorem State.tookDraw_pc (s : State) : (s.tookDraw).pc = s.pc := rfl
@[simp] theorem State.tookDraw_mem (s : State) : (s.tookDraw).mem = s.mem := rfl
@[simp] theorem State.tookDraw_v (s : State) : (s.tookDraw).v = s.v := rfl
@[simp] theorem State.tookDraw_i (s : State) : (s.tookDraw).i = s.i := rfl
@[simp] theorem State.tookDraw_stack (s : State) : (s.tookDraw).stack = s.stack := rfl
@[simp] theorem State.tookDraw_sp (s : State) : (s.tookDraw).sp = s.sp := rfl
@[simp] theorem State.tookDraw_key (s : State) : (s.tookDraw).key = s.key := rfl
@[simp] theorem State.tookDraw_dt (s : State) : (s.tookDraw).dt = s.dt := rfl
@[simp] theorem State.tookDraw_st (s : State) : (s.tookDraw).st = s.st := rfl
@[simp] theorem State.tookDraw_disp (s : State) : (s.tookDraw).disp = s.disp := rfl
@[simp] theorem State.tookDraw_fault (s : State) : (s.tookDraw).fault = s.fault := rfl
@[simp] theorem State.tookDraw_draws (s : State) : (s.tookDraw).draws = s.draws + 1 := rfl

/-! ### skipIf -/

@[simp] theorem State.skipIf_pc (s : State) (c : Bool) :
    (s.skipIf c).pc = if c then s.pc + 2 else s.pc := by cases c <;> rfl
@[simp] theorem State.skipIf_mem (s : State) (c : Bool) :
    (s.skipIf c).mem = s.mem := by cases c <;> rfl
@[simp] theorem State.skipIf_v (s : State) (c : Bool) : (s.skipIf c).v = s.v := by cases c <;> rfl
@[simp] theorem State.skipIf_i (s : State) (c : Bool) : (s.skipIf c).i = s.i := by cases c <;> rfl
@[simp] theorem State.skipIf_stack (s : State) (c : Bool) :
    (s.skipIf c).stack = s.stack := by cases c <;> rfl
@[simp] theorem State.skipIf_sp (s : State) (c : Bool) :
    (s.skipIf c).sp = s.sp := by cases c <;> rfl
@[simp] theorem State.skipIf_key (s : State) (c : Bool) :
    (s.skipIf c).key = s.key := by cases c <;> rfl
@[simp] theorem State.skipIf_dt (s : State) (c : Bool) :
    (s.skipIf c).dt = s.dt := by cases c <;> rfl
@[simp] theorem State.skipIf_st (s : State) (c : Bool) :
    (s.skipIf c).st = s.st := by cases c <;> rfl
@[simp] theorem State.skipIf_disp (s : State) (c : Bool) :
    (s.skipIf c).disp = s.disp := by cases c <;> rfl
@[simp] theorem State.skipIf_fault (s : State) (c : Bool) :
    (s.skipIf c).fault = s.fault := by cases c <;> rfl
@[simp] theorem State.skipIf_draws (s : State) (c : Bool) :
    (s.skipIf c).draws = s.draws := by cases c <;> rfl

/-! ### setKey -/

@[simp] theorem State.setKey_pc (s : State) (k : Nat) (down : Bool) :
    (s.setKey k down).pc = s.pc := by unfold State.setKey; split <;> rfl
@[simp] theorem State.setKey_mem (s : State) (k : Nat) (down : Bool) :
    (s.setKey k down).mem = s.mem := by unfold State.setKey; split <;> rfl
@[simp] theorem State.setKey_v (s : State) (k : Nat) (down : Bool) :
    (s.setKey k down).v = s.v := by unfold State.setKey; split <;> rfl
@[simp] theorem State.setKey_i (s : State) (k : Nat) (down : Bool) :
    (s.setKey k down).i = s.i := by unfold State.setKey; split <;> rfl
@[simp] theorem State.setKey_stack (s : State) (k : Nat) (down : Bool) :
    (s.setKey k down).stack = s.stack := by unfold State.setKey; split <;> rfl
@[simp] theorem State.setKey_sp (s : State) (k : Nat) (down : Bool) :
    (s.setKey k down).sp = s.sp := by unfold State.setKey; split <;> rfl
@[simp] theorem State.setKey_dt (s : State) (k : Nat) (down : Bool) :
    (s.setKey k down).dt = s.dt := by unfold State.setKey; split <;> rfl
@[simp] theorem State.setKey_st (s : State) (k : Nat) (down : Bool) :
    (s.setKey k down).st = s.st := by unfold State.setKey; split <;> rfl
@[simp] theorem State.setKey_disp (s : State) (k : Nat) (down : Bool) :
    (s.setKey k down).disp = s.disp := by unfold State.setKey; split <;> rfl
@[simp] theorem State.setKey_fault (s : State) (k : Nat) (down : Bool) :
    (s.setKey k down).fault = s.fault := by unfold State.setKey; split <;> rfl
@[simp] theorem State.setKey_draws (s : State) (k : Nat) (down : Bool) :
    (s.setKey k down).draws = s.draws := by unfold State.setKey; split <;> rfl

/-! ### raise -/

@[simp] theorem State.raise_pc (s : State) (c : FaultCause) (a : Option Word) :
    (s.raise c a).pc = s.pc := by unfold State.raise; split <;> rfl
@[simp] theorem State.raise_mem (s : State) (c : FaultCause) (a : Option Word) :
    (s.raise c a).mem = s.mem := by unfold State.raise; split <;> rfl
@[simp] theorem State.raise_v (s : State) (c : FaultCause) (a : Option Word) :
    (s.raise c a).v = s.v := by unfold State.raise; split <;> rfl
@[simp] theorem State.raise_i (s : State) (c : FaultCause) (a : Option Word) :
    (s.raise c a).i = s.i := by unfold State.raise; split <;> rfl
@[simp] theorem State.raise_stack (s : State) (c : FaultCause) (a : Option Word) :
    (s.raise c a).stack = s.stack := by unfold State.raise; split <;> rfl
@[simp] theorem State.raise_sp (s : State) (c : FaultCause) (a : Option Word) :
    (s.raise c a).sp = s.sp := by unfold State.raise; split <;> rfl
@[simp] theorem State.raise_key (s : State) (c : FaultCause) (a : Option Word) :
    (s.raise c a).key = s.key := by unfold State.raise; split <;> rfl
@[simp] theorem State.raise_dt (s : State) (c : FaultCause) (a : Option Word) :
    (s.raise c a).dt = s.dt := by unfold State.raise; split <;> rfl
@[simp] theorem State.raise_st (s : State) (c : FaultCause) (a : Option Word) :
    (s.raise c a).st = s.st := by unfold State.raise; split <;> rfl
@[simp] theorem State.raise_disp (s : State) (c : FaultCause) (a : Option Word) :
    (s.raise c a).disp = s.disp := by unfold State.raise; split <;> rfl
@[simp] theorem State.raise_draws (s : State) (c : FaultCause) (a : Option Word) :
    (s.raise c a).draws = s.draws := by unfold State.raise; split <;> rfl

/-! ### writeFlagged -/

@[simp] theorem State.writeFlagged_pc (s : State) (x : RegIdx) (b : Byte) (c : Bool) :
    (s.writeFlagged x b c).pc = s.pc := rfl
@[simp] theorem State.writeFlagged_mem (s : State) (x : RegIdx) (b : Byte) (c : Bool) :
    (s.writeFlagged x b c).mem = s.mem := rfl
@[simp] theorem State.writeFlagged_i (s : State) (x : RegIdx) (b : Byte) (c : Bool) :
    (s.writeFlagged x b c).i = s.i := rfl
@[simp] theorem State.writeFlagged_stack (s : State) (x : RegIdx) (b : Byte) (c : Bool) :
    (s.writeFlagged x b c).stack = s.stack := rfl
@[simp] theorem State.writeFlagged_sp (s : State) (x : RegIdx) (b : Byte) (c : Bool) :
    (s.writeFlagged x b c).sp = s.sp := rfl
@[simp] theorem State.writeFlagged_key (s : State) (x : RegIdx) (b : Byte) (c : Bool) :
    (s.writeFlagged x b c).key = s.key := rfl
@[simp] theorem State.writeFlagged_dt (s : State) (x : RegIdx) (b : Byte) (c : Bool) :
    (s.writeFlagged x b c).dt = s.dt := rfl
@[simp] theorem State.writeFlagged_st (s : State) (x : RegIdx) (b : Byte) (c : Bool) :
    (s.writeFlagged x b c).st = s.st := rfl
@[simp] theorem State.writeFlagged_disp (s : State) (x : RegIdx) (b : Byte) (c : Bool) :
    (s.writeFlagged x b c).disp = s.disp := rfl
@[simp] theorem State.writeFlagged_fault (s : State) (x : RegIdx) (b : Byte) (c : Bool) :
    (s.writeFlagged x b c).fault = s.fault := rfl
@[simp] theorem State.writeFlagged_draws (s : State) (x : RegIdx) (b : Byte) (c : Bool) :
    (s.writeFlagged x b c).draws = s.draws := rfl

/-! ### loadRegs writes registers only -/

@[simp] theorem State.loadRegs_pc (s : State) (k : Nat) (bs : List Byte) :
    (s.loadRegs k bs).pc = s.pc := by
  induction bs generalizing s k with
  | nil => rfl
  | cons b rest ih => simp [State.loadRegs, ih]
@[simp] theorem State.loadRegs_mem (s : State) (k : Nat) (bs : List Byte) :
    (s.loadRegs k bs).mem = s.mem := by
  induction bs generalizing s k with
  | nil => rfl
  | cons b rest ih => simp [State.loadRegs, ih]
@[simp] theorem State.loadRegs_i (s : State) (k : Nat) (bs : List Byte) :
    (s.loadRegs k bs).i = s.i := by
  induction bs generalizing s k with
  | nil => rfl
  | cons b rest ih => simp [State.loadRegs, ih]
@[simp] theorem State.loadRegs_stack (s : State) (k : Nat) (bs : List Byte) :
    (s.loadRegs k bs).stack = s.stack := by
  induction bs generalizing s k with
  | nil => rfl
  | cons b rest ih => simp [State.loadRegs, ih]
@[simp] theorem State.loadRegs_sp (s : State) (k : Nat) (bs : List Byte) :
    (s.loadRegs k bs).sp = s.sp := by
  induction bs generalizing s k with
  | nil => rfl
  | cons b rest ih => simp [State.loadRegs, ih]
@[simp] theorem State.loadRegs_key (s : State) (k : Nat) (bs : List Byte) :
    (s.loadRegs k bs).key = s.key := by
  induction bs generalizing s k with
  | nil => rfl
  | cons b rest ih => simp [State.loadRegs, ih]
@[simp] theorem State.loadRegs_dt (s : State) (k : Nat) (bs : List Byte) :
    (s.loadRegs k bs).dt = s.dt := by
  induction bs generalizing s k with
  | nil => rfl
  | cons b rest ih => simp [State.loadRegs, ih]
@[simp] theorem State.loadRegs_st (s : State) (k : Nat) (bs : List Byte) :
    (s.loadRegs k bs).st = s.st := by
  induction bs generalizing s k with
  | nil => rfl
  | cons b rest ih => simp [State.loadRegs, ih]
@[simp] theorem State.loadRegs_disp (s : State) (k : Nat) (bs : List Byte) :
    (s.loadRegs k bs).disp = s.disp := by
  induction bs generalizing s k with
  | nil => rfl
  | cons b rest ih => simp [State.loadRegs, ih]
@[simp] theorem State.loadRegs_fault (s : State) (k : Nat) (bs : List Byte) :
    (s.loadRegs k bs).fault = s.fault := by
  induction bs generalizing s k with
  | nil => rfl
  | cons b rest ih => simp [State.loadRegs, ih]
@[simp] theorem State.loadRegs_draws (s : State) (k : Nat) (bs : List Byte) :
    (s.loadRegs k bs).draws = s.draws := by
  induction bs generalizing s k with
  | nil => rfl
  | cons b rest ih => simp [State.loadRegs, ih]

/-- The rewind of a waiting key instruction undoes the advance (44_keypad_timers.md rule R142). -/
@[simp] theorem State.rewind_advance (s : State) : s.advance.rewind = s := by
  cases s
  simp [State.advance, State.rewind, State.setPC]

/-- `raise` on a state without a fault writes the record, and nothing else. -/
theorem State.raise_of_none {s : State} (h : s.fault = none) (c : FaultCause) (a : Option Word) :
    s.raise c a = { s with fault := some ⟨c, a⟩ } := by
  simp [State.raise, h]

/-- `raise` keeps the first fault. -/
theorem State.raise_of_some {s : State} {f : FaultRecord} (h : s.fault = some f) (c : FaultCause)
    (a : Option Word) : s.raise c a = s := by
  simp [State.raise, h]

/-- The register `FAULT` after `raise`. -/
@[simp] theorem State.raise_fault (s : State) (c : FaultCause) (a : Option Word) :
    (s.raise c a).fault = some (s.fault.getD ⟨c, a⟩) := by
  unfold State.raise
  split <;> simp_all

/-- Two states with equal fields are equal. -/
theorem State.eq_of_fields {s t : State} (hpc : s.pc = t.pc) (hmem : s.mem = t.mem) (hv : s.v = t.v)
    (hi : s.i = t.i) (hstack : s.stack = t.stack) (hsp : s.sp = t.sp) (hkey : s.key = t.key)
    (hdt : s.dt = t.dt) (hst : s.st = t.st) (hdisp : s.disp = t.disp) (hfault : s.fault = t.fault)
    (hdraws : s.draws = t.draws) : s = t := by
  cases s
  cases t
  simp_all

end Sys2Proof.Machine
end

