-- ==== Sys2Proof/Laws/Memory.lean ====
section
/-! SUPPORT. Memory: a read after a write, the canonical form and that every operation keeps it, and what a
range of bytes reads as (20_memory.md rules R44 and R52; log entry 10). -/

namespace Sys2Proof.Machine

/-! ### Reading -/

theorem Memory.read_insert (m : Memory) (a c : Nat) (b : Byte) (h : ∀ e ∈ m, e.1 ≠ a) :
    Memory.read (Memory.insert a b m) c = if c = a then b else Memory.read m c := by
  induction m with
  | nil => simp [Memory.insert, Memory.read, eq_comm]
  | cons e r ih =>
    obtain ⟨d, w⟩ := e
    have hd : d ≠ a := h (d, w) (by simp)
    have hr : ∀ e ∈ r, e.1 ≠ a := fun e he => h e (by simp [he])
    unfold Memory.insert
    split
    · simp [Memory.read, eq_comm]
    · simp only [Memory.read, ih hr]
      by_cases hc : c = a
      · simp [hc, hd]
      · simp [hc]

theorem Memory.read_filter (m : Memory) (a c : Nat) :
    Memory.read (m.filter (fun e => e.1 != a)) c =
      if c = a then Config.resetByte a else Memory.read m c := by
  induction m with
  | nil => by_cases h : c = a <;> simp [Memory.read, h]
  | cons e r ih =>
    obtain ⟨d, w⟩ := e
    by_cases hd : d = a
    · subst hd
      by_cases hc : c = d
      · subst hc; simpa using ih
      · simpa [hc, Memory.read, Ne.symm hc] using ih
    · by_cases hc : c = a
      · subst hc; simp [hd, ih, Memory.read]
      · simp [hd, hc, ih, Memory.read]

/-- A read after a write gives the byte written at its address, and every other byte as before. -/
@[simp] theorem Memory.read_write (m : Memory) (a c : Nat) (b : Byte) :
    Memory.read (Memory.write m a b) c = if c = a then b else Memory.read m c := by
  unfold Memory.write
  split
  · rename_i h
    rw [Memory.read_filter, h]
  · rw [Memory.read_insert _ _ _ _ (by simp), Memory.read_filter]
    split <;> simp_all

/-- Memory after a store of consecutive bytes: the stored range holds the bytes, every other byte is as
before. -/
theorem Memory.read_writeBytes (m : Memory) (a c : Nat) (bs : List Byte) :
    Memory.read (Memory.writeBytes m a bs) c =
      if a ≤ c ∧ c < a + bs.length then bs.getD (c - a) 0 else Memory.read m c := by
  induction bs generalizing m a with
  | nil => simp [Memory.writeBytes]
  | cons b rest ih =>
    rw [Memory.writeBytes, ih, Memory.read_write, List.length_cons]
    by_cases h1 : c = a
    · subst h1; simp
    · by_cases h2 : a + 1 ≤ c ∧ c < a + 1 + rest.length
      · have h3 : a ≤ c ∧ c < a + (rest.length + 1) := by omega
        have h4 : c - a = (c - (a + 1)) + 1 := by omega
        rw [if_pos h2, if_pos h3, h4]
        simp
      · have h3 : ¬(a ≤ c ∧ c < a + (rest.length + 1)) := by omega
        rw [if_neg h2, if_neg h3, if_neg h1]

@[simp] theorem Memory.readBytes_length (m : Memory) (a n : Nat) :
    (Memory.readBytes m a n).length = n := by
  induction n generalizing a with
  | zero => rfl
  | succ n ih => simp [Memory.readBytes, ih]

/-- The `k`-th byte of a range is the byte at its address. -/
theorem Memory.readBytes_getD (m : Memory) (a n k : Nat) (h : k < n) :
    (Memory.readBytes m a n).getD k 0 = Memory.read m (a + k) := by
  induction n generalizing a k with
  | zero => omega
  | succ n ih =>
    cases k with
    | zero => simp [Memory.readBytes]
    | succ k =>
      rw [Memory.readBytes, List.getD_cons_succ, ih (a + 1) k (by omega)]
      congr 1
      omega

/-- Reading a range depends only on the bytes read. -/
theorem Memory.readBytes_congr (m m' : Memory) (a n : Nat)
    (h : ∀ k, k < n → Memory.read m (a + k) = Memory.read m' (a + k)) :
    Memory.readBytes m a n = Memory.readBytes m' a n := by
  induction n generalizing a with
  | zero => rfl
  | succ n ih =>
    have h0 := h 0 (by omega)
    have hr := ih (a + 1) (fun k hk => by
      have := h (k + 1) (by omega)
      rwa [show a + (k + 1) = a + 1 + k by omega] at this)
    simp_all [Memory.readBytes]

/-! ### The canonical form -/

theorem Memory.wfFrom_mono {m : Memory} {lo lo' : Nat} (h : lo' ≤ lo) (hw : Memory.wfFrom lo m = true) :
    Memory.wfFrom lo' m = true := by
  cases m with
  | nil => rfl
  | cons e r =>
    obtain ⟨a, b⟩ := e
    simp only [Memory.wfFrom, Bool.and_eq_true, decide_eq_true_eq] at hw ⊢
    exact ⟨⟨⟨Nat.le_trans h hw.1.1.1, hw.1.1.2⟩, hw.1.2⟩, hw.2⟩

theorem Memory.wfFrom_filter {m : Memory} {lo : Nat} (a : Nat) (hw : Memory.wfFrom lo m = true) :
    Memory.wfFrom lo (m.filter (fun e => e.1 != a)) = true := by
  induction m generalizing lo with
  | nil => rfl
  | cons e r ih =>
    obtain ⟨d, w⟩ := e
    simp [Memory.wfFrom] at hw
    obtain ⟨⟨⟨h1, h2⟩, h3⟩, h4⟩ := hw
    by_cases hd : d = a
    · subst hd
      have := Memory.wfFrom_mono (show lo ≤ d + 1 by omega) (ih h4)
      simpa using this
    · simp [hd, Memory.wfFrom, h1, h2, h3]
      simpa using ih h4

theorem Memory.wfFrom_insert {m : Memory} {lo a : Nat} {b : Byte} (hw : Memory.wfFrom lo m = true)
    (hlo : lo ≤ a) (ha : a < Config.memSize) (hb : b ≠ Config.resetByte a) (hm : ∀ e ∈ m, e.1 ≠ a) :
    Memory.wfFrom lo (Memory.insert a b m) = true := by
  induction m generalizing lo with
  | nil => simp [Memory.insert, Memory.wfFrom, hlo, ha, hb]
  | cons e r ih =>
    obtain ⟨d, w⟩ := e
    have hd : d ≠ a := hm (d, w) (by simp)
    simp [Memory.wfFrom] at hw
    obtain ⟨⟨⟨h1, h2⟩, h3⟩, h4⟩ := hw
    unfold Memory.insert
    split
    · rename_i hlt
      simp [Memory.wfFrom, hlo, ha, hb, h2, h3, h4]
      omega
    · simp [Memory.wfFrom, h1, h2, h3]
      exact ih h4 (by omega) (fun e he => hm e (by simp [he]))

/-- A write inside memory keeps the canonical form. -/
theorem Memory.wf_write {m : Memory} (hw : Memory.wf m = true) {a : Nat} (ha : a < Config.memSize)
    (b : Byte) : Memory.wf (Memory.write m a b) = true := by
  unfold Memory.write
  split
  · exact Memory.wfFrom_filter a hw
  · rename_i hb
    exact Memory.wfFrom_insert (Memory.wfFrom_filter a hw) (by omega) ha hb (by simp)

/-- A store inside memory keeps the canonical form. -/
theorem Memory.wf_writeBytes {m : Memory} (hw : Memory.wf m = true) {a : Nat} {bs : List Byte}
    (ha : a + bs.length ≤ Config.memSize) : Memory.wf (Memory.writeBytes m a bs) = true := by
  induction bs generalizing m a with
  | nil => exact hw
  | cons b rest ih =>
    simp at ha
    exact ih (Memory.wf_write hw (by omega) b) (by omega)

/-- The memory of the reset state is in canonical form. -/
theorem Memory.wf_reset : Memory.wf State.reset.mem = true := rfl

theorem Memory.read_below {m : Memory} {lo c : Nat} (hw : Memory.wfFrom lo m = true) (hc : c < lo) :
    Memory.read m c = Config.resetByte c := by
  induction m generalizing lo with
  | nil => rfl
  | cons e r ih =>
    obtain ⟨d, w⟩ := e
    simp [Memory.wfFrom] at hw
    have hne : d ≠ c := by omega
    simp only [Memory.read, if_neg hne]
    exact ih hw.2 (by omega)

theorem Memory.eq_of_wfFrom {m m' : Memory} {lo : Nat} (hw : Memory.wfFrom lo m = true)
    (hw' : Memory.wfFrom lo m' = true) (h : ∀ c, Memory.read m c = Memory.read m' c) : m = m' := by
  induction m generalizing m' lo with
  | nil =>
    cases m' with
    | nil => rfl
    | cons e r =>
      obtain ⟨d, w⟩ := e
      have hd := h d
      simp [Memory.wfFrom] at hw'
      simp [Memory.read] at hd
      exact absurd hd.symm hw'.1.2
  | cons e r ih =>
    obtain ⟨d, w⟩ := e
    simp only [Memory.wfFrom, Bool.and_eq_true, decide_eq_true_eq, bne_iff_ne] at hw
    obtain ⟨⟨⟨h1, h2⟩, h3⟩, h4⟩ := hw
    cases m' with
    | nil =>
      have hd := h d
      simp [Memory.read] at hd
      exact absurd hd h3
    | cons e' r' =>
      obtain ⟨d', w'⟩ := e'
      simp only [Memory.wfFrom, Bool.and_eq_true, decide_eq_true_eq, bne_iff_ne] at hw'
      obtain ⟨⟨⟨h1', h2'⟩, h3'⟩, h4'⟩ := hw'
      rcases Nat.lt_trichotomy d d' with hlt | heq | hgt
      · have hd := h d
        rw [Memory.read, if_pos rfl, Memory.read, if_neg (by omega),
          Memory.read_below h4' (by omega)] at hd
        exact absurd hd h3
      · subst heq
        have hd := h d
        rw [Memory.read, if_pos rfl, Memory.read, if_pos rfl] at hd
        have hrest : r = r' := ih h4 h4' (fun c => by
          by_cases hc : d = c
          · rw [Memory.read_below h4 (by omega), Memory.read_below h4' (by omega)]
          · have hcc := h c
            rwa [Memory.read, if_neg hc, Memory.read, if_neg hc] at hcc)
        rw [hd, hrest]
      · have hd := h d'
        rw [Memory.read, if_neg (by omega), Memory.read, if_pos rfl,
          Memory.read_below h4 (by omega)] at hd
        exact absurd hd.symm h3'

/-- Memories in canonical form that read alike everywhere are equal data. -/
theorem Memory.eq_of_read {m m' : Memory} (hw : Memory.wf m = true) (hw' : Memory.wf m' = true)
    (h : ∀ c, Memory.read m c = Memory.read m' c) : m = m' := Memory.eq_of_wfFrom hw hw' h

end Sys2Proof.Machine
end

