-- ==== Sys2Proof/Laws/Registers.lean ====
section
/-! SUPPORT. General registers: what reading gives after each update (10_state.md rules R11 and R15). -/

namespace Sys2Proof.Machine

/-- Reading depends on the register file alone. -/
theorem State.readV_congr {s t : State} (h : s.v = t.v) (x : RegIdx) : s.readV x = t.readV x := by
  simp [State.readV, h]

/-- A read after a write: the written byte at its register, every other register as before. -/
@[simp] theorem State.readV_writeV (s : State) (x y : RegIdx) (b : Byte) :
    (s.writeV x b).readV y = if y = x then b else s.readV y := by
  unfold State.readV State.writeV
  by_cases h : y = x
  · simp [h]
  · have hne : x.toNat ≠ y.toNat := fun e => h (BitVec.eq_of_toNat_eq e.symm)
    simp [h, hne]

@[simp] theorem State.readV_setPC (s : State) (w : Word) (y : RegIdx) :
    (s.setPC w).readV y = s.readV y := rfl
@[simp] theorem State.readV_advance (s : State) (y : RegIdx) : s.advance.readV y = s.readV y := rfl
@[simp] theorem State.readV_rewind (s : State) (y : RegIdx) : s.rewind.readV y = s.readV y := rfl
@[simp] theorem State.readV_setI (s : State) (w : Word) (y : RegIdx) :
    (s.setI w).readV y = s.readV y := rfl
@[simp] theorem State.readV_setDT (s : State) (b : Byte) (y : RegIdx) :
    (s.setDT b).readV y = s.readV y := rfl
@[simp] theorem State.readV_setST (s : State) (b : Byte) (y : RegIdx) :
    (s.setST b).readV y = s.readV y := rfl
@[simp] theorem State.readV_setDisp (s : State) (d : Display) (y : RegIdx) :
    (s.setDisp d).readV y = s.readV y := rfl
@[simp] theorem State.readV_store (s : State) (a : Nat) (bs : List Byte) (y : RegIdx) :
    (s.store a bs).readV y = s.readV y := rfl
@[simp] theorem State.readV_tookDraw (s : State) (y : RegIdx) : s.tookDraw.readV y = s.readV y := rfl
@[simp] theorem State.readV_skipIf (s : State) (c : Bool) (y : RegIdx) :
    (s.skipIf c).readV y = s.readV y := State.readV_congr (by simp) y
@[simp] theorem State.readV_setKey (s : State) (k : Nat) (down : Bool) (y : RegIdx) :
    (s.setKey k down).readV y = s.readV y := State.readV_congr (by simp) y
@[simp] theorem State.readV_raise (s : State) (c : FaultCause) (a : Option Word) (y : RegIdx) :
    (s.raise c a).readV y = s.readV y := State.readV_congr (by simp) y

/-- The flag is written last: it is what `VF` holds, and the result stands in any other `V[x]`
(10_state.md rule R15). -/
@[simp] theorem State.readV_writeFlagged (s : State) (x y : RegIdx) (b : Byte) (c : Bool) :
    (s.writeFlagged x b c).readV y =
      if y = flagReg then flagByte c else if y = x then b else s.readV y := by
  simp [State.writeFlagged]

/-- A flag value is exactly 0 or 1 (10_state.md rule R14). -/
theorem flagByte_eq_zero_or_one (c : Bool) : flagByte c = 0 ∨ flagByte c = 1 := by
  cases c <;> simp [flagByte]

/-- The registers after a bulk load: those whose index is in the range hold the bytes, the others are as
before (42_index_memory.md rule R125). -/
theorem State.readV_loadRegs (s : State) (k : Nat) (bs : List Byte) (y : RegIdx)
    (hfit : k + bs.length ≤ 16) :
    (s.loadRegs k bs).readV y =
      if k ≤ y.toNat ∧ y.toNat < k + bs.length then bs.getD (y.toNat - k) 0 else s.readV y := by
  induction bs generalizing s k with
  | nil => simp [State.loadRegs]
  | cons b rest ih =>
    have hk : k < 16 := by simp at hfit; omega
    have hy := y.isLt
    have hidx : (y = BitVec.ofNat 4 k) ↔ y.toNat = k := by
      constructor
      · intro h; simp [h]; omega
      · intro h; apply BitVec.eq_of_toNat_eq; simp; omega
    have hrest : k + 1 + rest.length ≤ 16 := by simp at hfit; omega
    rw [State.loadRegs, ih _ _ hrest, State.readV_writeV]
    simp only [hidx, List.length_cons]
    by_cases h1 : y.toNat = k
    · simp [h1]
    · by_cases h2 : k + 1 ≤ y.toNat ∧ y.toNat < k + 1 + rest.length
      · have h3 : k ≤ y.toNat ∧ y.toNat < k + (rest.length + 1) := by omega
        have h4 : y.toNat - k = (y.toNat - (k + 1)) + 1 := by omega
        rw [if_pos h2, if_pos h3, h4]
        simp
      · have h3 : ¬(k ≤ y.toNat ∧ y.toNat < k + (rest.length + 1)) := by omega
        rw [if_neg h2, if_neg h3, if_neg h1]

/-- The registers of a bulk store, `n` of them (42_index_memory.md rule R124). -/
@[simp] theorem State.firstRegs_length (s : State) (n : Nat) :
    (s.firstRegs n).length = min n 16 := by
  simp [State.firstRegs]

/-- The `k`-th byte of a bulk store is `V[k]` (42_index_memory.md rule R124). -/
theorem State.firstRegs_getD (s : State) (n : Nat) (y : RegIdx) (h : y.toNat < n) :
    (s.firstRegs n).getD y.toNat 0 = s.readV y := by
  have hy : y.toNat < 16 := y.isLt
  simp [State.firstRegs, State.readV, List.getD, h, hy]

end Sys2Proof.Machine
end

