-- ==== Sys2Proof/Laws/Ops.lean ====
section
/-! SUPPORT. For each shared operation, once, everything it can answer. -/

namespace Sys2Proof.Machine

/-! ### The bounds check (20_memory.md rules R41 and R53) -/

theorem rangeFault_eq_none {start len : Nat} :
    rangeFault start len = none ↔ len = 0 ∨ start + len ≤ 4096 := by
  unfold rangeFault Config.memSize
  by_cases h : len = 0 ∨ start + len ≤ 4096 <;> simp [h]

theorem rangeFault_eq_some {start len a : Nat} :
    rangeFault start len = some a ↔ len ≠ 0 ∧ 4096 < start + len ∧ a = max start 4096 := by
  unfold rangeFault Config.memSize
  by_cases h : len = 0 ∨ start + len ≤ 4096
  · simp [h]
    omega
  · simp [h]
    omega

/-- In range, the body runs. -/
theorem withRange_of_fits {start len : Nat} (h : len = 0 ∨ start + len ≤ 4096) (s : State)
    (body : Out State) : withRange start len s body = body := by
  simp [withRange, rangeFault_eq_none.mpr h]

/-- Out of range, `MemoryBounds` with the first out-of-range address. -/
theorem withRange_of_exceeds {start len : Nat} (h0 : len ≠ 0) (h : 4096 < start + len) (s : State)
    (body : Out State) :
    withRange start len s body = faultStep (.memoryBounds (max start 4096)) s := by
  simp [withRange, rangeFault_eq_some.mpr ⟨h0, h, rfl⟩]

/-- The two cases of a checked range. -/
theorem withRange_cases {start len : Nat} {s : State} {body out : Out State}
    (h : withRange start len s body = out) :
    ((len = 0 ∨ start + len ≤ 4096) ∧ out = body) ∨
      (len ≠ 0 ∧ 4096 < start + len ∧ out = faultStep (.memoryBounds (max start 4096)) s) := by
  by_cases hf : len = 0 ∨ start + len ≤ 4096
  · exact .inl ⟨hf, by rw [← h, withRange_of_fits hf]⟩
  · exact .inr ⟨by omega, by omega, by rw [← h, withRange_of_exceeds (by omega) (by omega)]⟩

/-! ### Taking a fault (60_exceptions.md rules R171 and R176) -/

/-- A faulting step answers a next state that differs from the state on entry in `FAULT` alone. -/
theorem faultStep_of_none {s : State} (h : s.fault = none) (c : FaultCause) :
    faultStep c s = .next { s with fault := some ⟨c, some s.pc⟩ } := by
  rw [faultStep, State.raise_of_none h]

theorem faultStep_of_some {s : State} {f : FaultRecord} (h : s.fault = some f) (c : FaultCause) :
    faultStep c s = .next s := by
  rw [faultStep, State.raise_of_some h]

/-! ### The call stack (10_state.md rule R22) -/

/-- `SP` counts at most `STACK_DEPTH` entries. -/
theorem State.sp_le (s : State) : s.sp.val ≤ 16 := Nat.le_of_lt_succ s.sp.isLt

theorem State.push?_cases (s : State) (w : Word) :
    (s.sp.val = 16 ∧ s.push? w = none) ∨
      ∃ h : s.sp.val < 16, s.push? w =
        some { s with stack := s.stack.set s.sp.val w h, sp := ⟨s.sp.val + 1, Nat.succ_lt_succ h⟩ } := by
  have hle := s.sp_le
  by_cases h : s.sp.val < 16
  · exact .inr ⟨h, by simp [State.push?, h]⟩
  · exact .inl ⟨by omega, by simp [State.push?, h]⟩

theorem State.pop?_cases (s : State) :
    (s.sp.val = 0 ∧ s.pop? = none) ∨
      ∃ h : 0 < s.sp.val, s.pop? =
        some (s.stack[s.sp.val - 1]'(by omega), { s with sp := ⟨s.sp.val - 1, by omega⟩ }) := by
  by_cases h : 0 < s.sp.val
  · exact .inr ⟨h, by simp [State.pop?, h]⟩
  · exact .inl ⟨by omega, by simp [State.pop?, h]⟩

/-! ### The keypad (10_state.md rule R23) -/

theorem State.key?_eq_none {s : State} {k : Nat} : s.key? k = none ↔ 15 < k := by
  simp only [State.key?, getElem?_eq_none_iff, not_lt, Config.numKeys]
  omega

theorem State.key?_of_lt {s : State} {k : Nat} (h : k < 16) : s.key? k = some s.key[k] := by
  simp [State.key?, h]

/-- A latch after `setKey`: the named one holds the value, every other one is as before. -/
theorem State.key?_setKey (s : State) (k j : Nat) (down : Bool) :
    (s.setKey k down).key? j = if j = k ∧ k < 16 then some down else s.key? j := by
  unfold State.setKey
  split
  · rename_i h
    by_cases hj : j = k
    · simp [State.key?, hj, h]
    · have hjk : k ≠ j := Ne.symm hj
      simp [State.key?, hj, hjk]
  · rename_i h
    simp [h]

/-- No key is down exactly when no least pressed key is found. -/
theorem State.firstPressed_eq_none {s : State} :
    s.firstPressed = none ↔ ∀ k, s.key? k ≠ some true := by
  simp only [State.firstPressed, List.findIdx?_eq_none_iff, State.key?]
  constructor
  · intro h k hk
    have hm : true ∈ s.key.toList := by
      rw [Vector.getElem?_eq_some_iff] at hk
      obtain ⟨hlt, hv⟩ := hk
      rw [← hv]
      simp
    simpa using h true hm
  · intro h b hb
    rw [Vector.mem_toList_iff, Vector.mem_iff_getElem] at hb
    obtain ⟨k, hk, hv⟩ := hb
    have := h k
    rw [Vector.getElem?_eq_getElem hk, hv] at this
    simpa using this

/-- The least pressed key. -/
theorem State.firstPressed_eq_some {s : State} {k : Nat} :
    s.firstPressed = some k ↔ s.key? k = some true ∧ ∀ j, j < k → s.key? j = some false := by
  simp only [State.firstPressed, List.findIdx?_eq_some_iff_getElem, State.key?]
  constructor
  · rintro ⟨h, hk, hj⟩
    have h16 : k < 16 := by simpa using h
    refine ⟨by simpa [h16] using hk, fun j hlt => ?_⟩
    have hj16 : j < 16 := by omega
    simpa [hj16] using hj j hlt
  · rintro ⟨hk, hj⟩
    rw [Vector.getElem?_eq_some_iff] at hk
    obtain ⟨h16, hv⟩ := hk
    refine ⟨by simpa using h16, by simpa using hv, fun j hlt => ?_⟩
    have hj' := hj j hlt
    rw [Vector.getElem?_eq_some_iff] at hj'
    obtain ⟨_, hvj⟩ := hj'
    simpa using hvj

/-- A pressed key has an index of at most 15. -/
theorem State.firstPressed_lt {s : State} {k : Nat} (h : s.firstPressed = some k) : k < 16 := by
  have hk := (State.firstPressed_eq_some.mp h).1
  by_contra hge
  rw [State.key?_eq_none.mpr (by omega)] at hk
  simp at hk

end Sys2Proof.Machine
end

