-- ==== Sys2Proof/Laws/Display.lean ====
section
/-! SUPPORT. The display: a drawing is a list of visits to distinct cells, so what it leaves in each cell and
whether it collides can be said without the loop (43_display.md rule R131). -/

namespace Sys2Proof.Machine

/-- A cell after one cell is set. -/
@[simp] theorem Display.cell_setCell (d : Display) (y y' : Fin 32) (x x' : Fin 64) (b : Bool) :
    (d.setCell y x b).cell y' x' = if y' = y ∧ x' = x then b else d.cell y' x' := by
  unfold Display.cell Display.setCell
  by_cases hy : y' = y
  · subst hy
    by_cases hx : x' = x
    · simp [hx]
    · have hne : x.val ≠ x'.val := fun e => hx (Fin.ext e.symm)
      simp [hx, hne]
  · have hne : y.val ≠ y'.val := fun e => hy (Fin.ext e.symm)
    simp [hy, hne]

/-- No cell of a clear display is lit. -/
@[simp] theorem Display.cell_clear (y : Fin 32) (x : Fin 64) : Display.clear.cell y x = false := by
  simp [Display.cell, Display.clear]

/-- Displays with equal cells are equal. -/
theorem Display.eq_of_cell {d d' : Display} (h : ∀ y x, d.cell y x = d'.cell y x) : d = d' := by
  apply Vector.ext
  intro y hy
  apply Vector.ext
  intro x hx
  exact h ⟨y, hy⟩ ⟨x, hx⟩

/-- Visit cells one after the other. -/
def Canvas.visits (c : Canvas) (cells : List (Fin 32 × Fin 64)) : Canvas :=
  cells.foldl (fun c p => c.visit p.1 p.2) c

/-- After visits to distinct cells each visited cell is toggled and every other one is as before. -/
theorem Canvas.visits_cell (c : Canvas) (cells : List (Fin 32 × Fin 64)) (hd : cells.Nodup)
    (y : Fin 32) (x : Fin 64) :
    (c.visits cells).disp.cell y x =
      if (y, x) ∈ cells then !(c.disp.cell y x) else c.disp.cell y x := by
  induction cells generalizing c with
  | nil => simp [Canvas.visits]
  | cons p rest ih =>
    obtain ⟨py, px⟩ := p
    rw [List.nodup_cons] at hd
    have hstep : c.visits ((py, px) :: rest) = (c.visit py px).visits rest := rfl
    rw [hstep, ih _ hd.2]
    by_cases hp : (y, x) = (py, px)
    · obtain ⟨rfl, rfl⟩ := Prod.mk.injEq .. ▸ hp
      simp [hd.1, Canvas.visit]
    · have hcell : ¬(y = py ∧ x = px) := fun e => hp (by rw [e.1, e.2])
      simp [Canvas.visit, hcell]

/-- Visits to distinct cells collide exactly when one of them was lit before the first visit. -/
theorem Canvas.visits_hit (c : Canvas) (cells : List (Fin 32 × Fin 64)) (hd : cells.Nodup) :
    (c.visits cells).hit = true ↔ c.hit = true ∨ ∃ p ∈ cells, c.disp.cell p.1 p.2 = true := by
  induction cells generalizing c with
  | nil => simp [Canvas.visits]
  | cons p rest ih =>
    rw [List.nodup_cons] at hd
    have hstep : c.visits (p :: rest) = (c.visit p.1 p.2).visits rest := rfl
    rw [hstep, ih _ hd.2]
    have hsame : ∀ q ∈ rest, (c.visit p.1 p.2).disp.cell q.1 q.2 = c.disp.cell q.1 q.2 := by
      intro q hq
      have hne : ¬(q.1 = p.1 ∧ q.2 = p.2) := fun e => hd.1 (by
        rwa [show p = q from (Prod.ext e.1 e.2).symm])
      simp [Canvas.visit, hne]
    constructor
    · rintro (h | ⟨q, hq, hl⟩)
      · rcases Bool.or_eq_true_iff.mp h with h | h
        · exact .inl h
        · exact .inr ⟨p, by simp, h⟩
      · exact .inr ⟨q, by simp [hq], by rwa [hsame q hq] at hl⟩
    · rintro (h | ⟨q, hq, hl⟩)
      · exact .inl (by simp [Canvas.visit, h])
      · rcases List.mem_cons.mp hq with rfl | hq
        · exact .inl (by simp [Canvas.visit, hl])
        · exact .inr ⟨q, hq, by rwa [hsame q hq]⟩

/-- The cells a sprite row visits. -/
def rowCells (x0 cy : Nat) (b : Byte) : List (Fin 32 × Fin 64) :=
  ((List.range 8).filter (fun col => b.getLsbD (7 - col))).map
    (fun col => (Fin.ofNat 32 cy, Fin.ofNat 64 (x0 + col)))

/-- The cells a sprite visits, in the order of the loops. -/
def spriteCells (x0 cy : Nat) (rows : List Byte) : List (Fin 32 × Fin 64) :=
  match rows with
  | [] => []
  | b :: rest => rowCells x0 cy b ++ spriteCells x0 (cy + 1) rest

theorem drawRow_eq_visits (x0 cy : Nat) (b : Byte) (c : Canvas) :
    drawRow x0 cy b c = c.visits (rowCells x0 cy b) := by
  simp only [drawRow, Canvas.visits, rowCells, List.foldl_map, List.foldl_filter]
  rfl

theorem drawRows_eq_visits (x0 cy : Nat) (rows : List Byte) (c : Canvas) :
    drawRows x0 cy rows c = c.visits (spriteCells x0 cy rows) := by
  induction rows generalizing cy c with
  | nil => rfl
  | cons b rest ih =>
    rw [drawRows, ih, drawRow_eq_visits]
    simp [spriteCells, Canvas.visits]

theorem mem_rowCells {x0 cy : Nat} {b : Byte} {y : Fin 32} {x : Fin 64} :
    (y, x) ∈ rowCells x0 cy b ↔
      ∃ col, col < 8 ∧ b.getLsbD (7 - col) = true ∧ y.val = cy % 32 ∧ x.val = (x0 + col) % 64 := by
  simp only [rowCells, List.mem_map, List.mem_filter, List.mem_range, Prod.mk.injEq, Fin.ext_iff,
    Fin.ofNat]
  constructor
  · rintro ⟨col, ⟨h1, h2⟩, h3, h4⟩
    exact ⟨col, h1, h2, h3.symm, h4.symm⟩
  · rintro ⟨col, h1, h2, h3, h4⟩
    exact ⟨col, ⟨h1, h2⟩, h3.symm, h4.symm⟩

/-- Which cells a sprite visits: row `row` and column `col` of it go to the wrapped coordinates
(43_display.md rule R131). -/
theorem mem_spriteCells {x0 cy : Nat} {rows : List Byte} {y : Fin 32} {x : Fin 64} :
    (y, x) ∈ spriteCells x0 cy rows ↔
      ∃ row col, row < rows.length ∧ col < 8 ∧ (rows.getD row 0).getLsbD (7 - col) = true ∧
        y.val = (cy + row) % 32 ∧ x.val = (x0 + col) % 64 := by
  induction rows generalizing cy with
  | nil => simp [spriteCells]
  | cons b rest ih =>
    rw [spriteCells, List.mem_append, mem_rowCells, ih]
    constructor
    · rintro (⟨col, h1, h2, h3, h4⟩ | ⟨row, col, h0, h1, h2, h3, h4⟩)
      · exact ⟨0, col, by simp, h1, by simpa using h2, by simpa using h3, h4⟩
      · exact ⟨row + 1, col, by simpa using h0, h1, by simpa using h2,
          by rw [h3]; congr 1; omega, h4⟩
    · rintro ⟨row, col, h0, h1, h2, h3, h4⟩
      cases row with
      | zero => exact .inl ⟨col, h1, by simpa using h2, by simpa using h3, h4⟩
      | succ row =>
        exact .inr ⟨row, col, by simpa using h0, h1, by simpa using h2,
          by rw [h3]; congr 1; omega, h4⟩

theorem rowCells_nodup (x0 cy : Nat) (b : Byte) : (rowCells x0 cy b).Nodup := by
  refine List.Nodup.map_on ?_ (List.nodup_range.filter _)
  intro c1 h1 c2 h2 he
  simp only [List.mem_filter, List.mem_range] at h1 h2
  simp only [Prod.mk.injEq, Fin.ext_iff, Fin.ofNat] at he
  omega

/-- A sprite of at most 32 rows visits each cell at most once (43_display.md rule R131). -/
theorem spriteCells_nodup (x0 cy : Nat) (rows : List Byte) (h : rows.length ≤ 32) :
    (spriteCells x0 cy rows).Nodup := by
  induction rows generalizing cy with
  | nil => simp [spriteCells]
  | cons b rest ih =>
    simp only [List.length_cons] at h
    refine List.Nodup.append (rowCells_nodup x0 cy b) (ih (cy + 1) (by omega)) ?_
    rintro ⟨y, x⟩ h1 h2
    obtain ⟨_, _, _, hy, _⟩ := mem_rowCells.mp h1
    obtain ⟨row, _, hr, _, _, hy', _⟩ := mem_spriteCells.mp h2
    omega

/-- What a drawing leaves in each cell. -/
theorem drawRows_cell (x0 cy : Nat) (rows : List Byte) (c : Canvas) (h : rows.length ≤ 32)
    (y : Fin 32) (x : Fin 64) :
    (drawRows x0 cy rows c).disp.cell y x =
      if (y, x) ∈ spriteCells x0 cy rows then !(c.disp.cell y x) else c.disp.cell y x := by
  rw [drawRows_eq_visits, Canvas.visits_cell _ _ (spriteCells_nodup x0 cy rows h)]

/-- When a drawing collides. -/
theorem drawRows_hit (x0 cy : Nat) (rows : List Byte) (c : Canvas) (h : rows.length ≤ 32) :
    (drawRows x0 cy rows c).hit = true ↔
      c.hit = true ∨ ∃ p ∈ spriteCells x0 cy rows, c.disp.cell p.1 p.2 = true := by
  rw [drawRows_eq_visits, Canvas.visits_hit _ _ (spriteCells_nodup x0 cy rows h)]

end Sys2Proof.Machine
end

