-- ==== Sys2Proof/Laws/PerInstr.lean ====
section
/-! SUPPORT. Per instruction: the word that the encoder writes, from the formats of 30_encoding.md rule R63,
selects the row of the decode map that rule R64 gives the instruction. -/

namespace Sys2Proof.Laws.EncodesItsRow

/-- The word of the instruction selects its row of the decode map (30_encoding.md rule R64). -/
def Statement (i : Instr) : Prop := i.row.selects (encode i) = true

theorem nop : Statement .nop :=
  rfl
theorem cls : Statement .cls :=
  rfl
theorem ret : Statement .ret :=
  rfl
theorem jp (nnn : Addr12) : Statement (.jp nnn) :=
  (selects_family rfl).mpr (by simp [encode]; rfl)
theorem call (nnn : Addr12) : Statement (.call nnn) :=
  (selects_family rfl).mpr (by simp [encode]; rfl)
theorem seImm (x : RegIdx) (nn : Byte) : Statement (.seImm x nn) :=
  (selects_family rfl).mpr (by simp [encode]; rfl)
theorem sneImm (x : RegIdx) (nn : Byte) : Statement (.sneImm x nn) :=
  (selects_family rfl).mpr (by simp [encode]; rfl)
theorem seReg (x : RegIdx) (y : RegIdx) : Statement (.seReg x y) :=
  (selects_function rfl).mpr (by simp [encode]; exact ⟨rfl, rfl⟩)
theorem ldImm (x : RegIdx) (nn : Byte) : Statement (.ldImm x nn) :=
  (selects_family rfl).mpr (by simp [encode]; rfl)
theorem addImm (x : RegIdx) (nn : Byte) : Statement (.addImm x nn) :=
  (selects_family rfl).mpr (by simp [encode]; rfl)
theorem ldReg (x : RegIdx) (y : RegIdx) : Statement (.ldReg x y) :=
  (selects_function rfl).mpr (by simp [encode]; exact ⟨rfl, rfl⟩)
theorem or (x : RegIdx) (y : RegIdx) : Statement (.or x y) :=
  (selects_function rfl).mpr (by simp [encode]; exact ⟨rfl, rfl⟩)
theorem and (x : RegIdx) (y : RegIdx) : Statement (.and x y) :=
  (selects_function rfl).mpr (by simp [encode]; exact ⟨rfl, rfl⟩)
theorem xor (x : RegIdx) (y : RegIdx) : Statement (.xor x y) :=
  (selects_function rfl).mpr (by simp [encode]; exact ⟨rfl, rfl⟩)
theorem addReg (x : RegIdx) (y : RegIdx) : Statement (.addReg x y) :=
  (selects_function rfl).mpr (by simp [encode]; exact ⟨rfl, rfl⟩)
theorem sub (x : RegIdx) (y : RegIdx) : Statement (.sub x y) :=
  (selects_function rfl).mpr (by simp [encode]; exact ⟨rfl, rfl⟩)
theorem shr (x : RegIdx) (y : RegIdx) : Statement (.shr x y) :=
  (selects_function rfl).mpr (by simp [encode]; exact ⟨rfl, rfl⟩)
theorem subn (x : RegIdx) (y : RegIdx) : Statement (.subn x y) :=
  (selects_function rfl).mpr (by simp [encode]; exact ⟨rfl, rfl⟩)
theorem shl (x : RegIdx) (y : RegIdx) : Statement (.shl x y) :=
  (selects_function rfl).mpr (by simp [encode]; exact ⟨rfl, rfl⟩)
theorem sneReg (x : RegIdx) (y : RegIdx) : Statement (.sneReg x y) :=
  (selects_function rfl).mpr (by simp [encode]; exact ⟨rfl, rfl⟩)
theorem ldI (nnn : Addr12) : Statement (.ldI nnn) :=
  (selects_family rfl).mpr (by simp [encode]; rfl)
theorem jpV0 (nnn : Addr12) : Statement (.jpV0 nnn) :=
  (selects_family rfl).mpr (by simp [encode]; rfl)
theorem rnd (x : RegIdx) (nn : Byte) : Statement (.rnd x nn) :=
  (selects_family rfl).mpr (by simp [encode]; rfl)
theorem drw (x : RegIdx) (y : RegIdx) (n : Nibble) : Statement (.drw x y n) :=
  (selects_family rfl).mpr (by simp [encode]; rfl)
theorem skp (x : RegIdx) : Statement (.skp x) :=
  (selects_byte rfl).mpr (by simp [encode]; exact ⟨rfl, rfl⟩)
theorem sknp (x : RegIdx) : Statement (.sknp x) :=
  (selects_byte rfl).mpr (by simp [encode]; exact ⟨rfl, rfl⟩)
theorem ldVxDT (x : RegIdx) : Statement (.ldVxDT x) :=
  (selects_byte rfl).mpr (by simp [encode]; exact ⟨rfl, rfl⟩)
theorem ldVxK (x : RegIdx) : Statement (.ldVxK x) :=
  (selects_byte rfl).mpr (by simp [encode]; exact ⟨rfl, rfl⟩)
theorem ldDTVx (x : RegIdx) : Statement (.ldDTVx x) :=
  (selects_byte rfl).mpr (by simp [encode]; exact ⟨rfl, rfl⟩)
theorem ldSTVx (x : RegIdx) : Statement (.ldSTVx x) :=
  (selects_byte rfl).mpr (by simp [encode]; exact ⟨rfl, rfl⟩)
theorem addI (x : RegIdx) : Statement (.addI x) :=
  (selects_byte rfl).mpr (by simp [encode]; exact ⟨rfl, rfl⟩)
theorem ldF (x : RegIdx) : Statement (.ldF x) :=
  (selects_byte rfl).mpr (by simp [encode]; exact ⟨rfl, rfl⟩)
theorem ldB (x : RegIdx) : Statement (.ldB x) :=
  (selects_byte rfl).mpr (by simp [encode]; exact ⟨rfl, rfl⟩)
theorem ldMemVx (x : RegIdx) : Statement (.ldMemVx x) :=
  (selects_byte rfl).mpr (by simp [encode]; exact ⟨rfl, rfl⟩)
theorem ldVxMem (x : RegIdx) : Statement (.ldVxMem x) :=
  (selects_byte rfl).mpr (by simp [encode]; exact ⟨rfl, rfl⟩)

end Sys2Proof.Laws.EncodesItsRow
end

