-- ==== Sys2Proof/Tests/Slice0.lean ====
section
/-! SUPPORT. Tests of the model, one step each on a small state, with the results the spec gives
(95_test_vectors.md, vector V<n>), and for each statement with hypotheses a witness that meets them. -/

namespace Sys2Proof.Tests

open Sys2Proof.Machine

/-! ## Helpers -/

/-- The state of an outcome that has one. -/
def stateOf : Out State → Option State
  | .next t => some t
  | .fault _ => none
  | .refused _ => none

/-- What one `STEP` makes of `s` with the word `w` placed at its `PC`; `view` picks what a test looks at. -/
def after {α : Type} (w : Nat) (s : State) (view : State → α) : Option α :=
  (stateOf (step (s.withFetchWord 16 w))).map view

/-- The reset state with `V[x]` = `a`. -/
def with1 (x : RegIdx) (a : Byte) : State := State.reset.writeV x a

/-- The reset state with `V[x]` = `a` and `V[y]` = `b`. -/
def with2 (x : RegIdx) (a : Byte) (y : RegIdx) (b : Byte) : State := (with1 x a).writeV y b

/-- `V[x]` and `VF`. -/
def regAndFlag (x : RegIdx) (t : State) : Byte × Byte := (t.readV x, t.readV 15)

/-- The columns of the lit cells of a row. -/
def litRow (y : Fin 32) (t : State) : List Nat :=
  (List.range 64).filter (fun x => t.disp.cell y (Fin.ofNat 64 x))

/-- The reset state with one cell lit. -/
def withCell (y : Fin 32) (x : Fin 64) (s : State) : State := s.setDisp (s.disp.setCell y x true)

/-- The reset state with `SP` at `n`. -/
def withSP (n : Fin 17) : State := { State.reset with sp := n }

/-- The record of a fault at 0x200. -/
def faultHere (c : FaultCause) : Option FaultRecord := some ⟨c, some 0x200⟩

/-! ## Decoding: words written out from the formats of 30_encoding.md rules R63 and R64 -/

theorem test_decode_fixed : decode 0x0000 = .ok .nop ∧ decode 0x00E0 = .ok .cls ∧ decode 0x00EE = .ok .ret := by
  decide

theorem test_decode_address : decode 0x1204 = .ok (.jp 0x204) ∧ decode 0x2ABC = .ok (.call 0xABC) ∧
    decode 0xA300 = .ok (.ldI 0x300) ∧ decode 0xBFFF = .ok (.jpV0 0xFFF) := by decide

theorem test_decode_immediate : decode 0x3F01 = .ok (.seImm 15 0x01) ∧
    decode 0x4A07 = .ok (.sneImm 10 0x07) ∧ decode 0x610A = .ok (.ldImm 1 0x0A) ∧
    decode 0x7FE1 = .ok (.addImm 15 0xE1) ∧ decode 0xC10F = .ok (.rnd 1 0x0F) := by decide

theorem test_decode_register : decode 0x5120 = .ok (.seReg 1 2) ∧ decode 0x9AB0 = .ok (.sneReg 10 11) ∧
    decode 0x8120 = .ok (.ldReg 1 2) ∧ decode 0x8121 = .ok (.or 1 2) ∧ decode 0x8122 = .ok (.and 1 2) ∧
    decode 0x8123 = .ok (.xor 1 2) ∧ decode 0x8F14 = .ok (.addReg 15 1) ∧
    decode 0x8015 = .ok (.sub 0 1) ∧ decode 0x8126 = .ok (.shr 1 2) ∧
    decode 0x8127 = .ok (.subn 1 2) ∧ decode 0x81FE = .ok (.shl 1 15) := by decide

theorem test_decode_draw_and_keys : decode 0xD018 = .ok (.drw 0 1 8) ∧ decode 0xE19E = .ok (.skp 1) ∧
    decode 0xEFA1 = .ok (.sknp 15) := by decide

theorem test_decode_misc : decode 0xF307 = .ok (.ldVxDT 3) ∧ decode 0xF10A = .ok (.ldVxK 1) ∧
    decode 0xF215 = .ok (.ldDTVx 2) ∧ decode 0xF118 = .ok (.ldSTVx 1) ∧ decode 0xF21E = .ok (.addI 2) ∧
    decode 0xF129 = .ok (.ldF 1) ∧ decode 0xF033 = .ok (.ldB 0) ∧ decode 0xFF55 = .ok (.ldMemVx 15) ∧
    decode 0xF465 = .ok (.ldVxMem 4) := by decide

/-- The smoke test of `wellFormedWord`: every illegal word of V195 is refused by the map and by the
decoder. -/
theorem test_ill_formed_words : [0x0001, 0x00E1, 0x00EF, 0x0123, 0x00FF, 0x5001, 0x500F, 0x8008, 0x800D,
    0x800F, 0x9001, 0xE000, 0xE09F, 0xE0A0, 0xF000, 0xF164, 0xF175, 0xF185, 0xF130, 0xF0FF].all
    (fun w => !wellFormedWord w && decide (decode w = .error (.unrecognized w))) = true := by decide

/-- Two bytes make an opcode, the high byte first (V190), and one byte makes none. -/
theorem test_decode_bytes : decodeBytes [0x12, 0x34, 0x56] = .ok (.jp 0x234, [0x56]) ∧
    decodeBytes [0x12] = .error (.truncated 1) ∧ decodeTableWord 16 0x1234 = some (.jp 0x234) := by decide

/-! ## One step of each instruction -/

/-- V1. -/
theorem test_nop : after 0x0000 State.reset (·.pc) = some 0x202 := by decide
/-- V130. -/
theorem test_cls : after 0x00E0 (withCell 1 36 (with1 15 7)) (fun t => (litRow 1 t, t.readV 15)) = some ([], 7) := by
  decide
/-- V3. -/
theorem test_ret_newest : after 0x00EE { withSP 2 with stack := State.reset.stack.set 1 0x300 }
    (fun t => (t.pc, t.sp)) = some (0x300, 1) := by decide
/-- V4. -/
theorem test_ret_underflow : after 0x00EE State.reset (fun t => (t.pc, t.fault)) =
    some (0x200, faultHere .stackUnderflow) := by decide
/-- V8. -/
theorem test_jp_odd : after 0x1203 State.reset (·.pc) = some 0x203 := by decide
/-- V11. -/
theorem test_call_last : after 0x2200 (withSP 15) (fun t => (t.pc, t.sp, t.stack[15])) =
    some (0x200, 16, 0x202) := by decide
/-- V12. -/
theorem test_call_overflow : after 0x2200 (withSP 16) (fun t => (t.sp, t.fault)) =
    some (16, faultHere .stackOverflow) := by decide
/-- V19. -/
theorem test_se_imm : after 0x3F01 (with1 15 1) (·.pc) = some 0x204 := by decide
/-- V22, at 0x200. -/
theorem test_sne_imm : after 0x4A07 (with1 10 8) (·.pc) = some 0x204 := by decide
/-- V23 and V24. -/
theorem test_se_reg : after 0x5120 (with2 1 0x33 2 0x33) (·.pc) = some 0x204 ∧
    after 0x5120 (with2 1 0x33 2 0x34) (·.pc) = some 0x202 := by decide
/-- V41. -/
theorem test_ld_imm : after 0x6F05 State.reset (·.readV 15) = some 5 := by decide
/-- V42. -/
theorem test_add_imm : after 0x7005 (with1 0 0xFE) (regAndFlag 0) = some (3, 0) := by decide
/-- V47. -/
theorem test_ld_reg : after 0x8EF0 (with1 15 1) (·.readV 14) = some 1 := by decide
/-- V49. -/
theorem test_or : after 0x8121 ((with2 1 0xF0 2 0x0C).writeV 15 0x55) (regAndFlag 1) = some (0xFC, 0x55) := by
  decide
/-- V50. -/
theorem test_and : after 0x8122 (with2 1 0xF5 2 0x3C) (regAndFlag 1) = some (0x34, 0) := by decide
/-- V51. -/
theorem test_xor : after 0x8123 (with2 1 0xFF 2 0x0F) (regAndFlag 1) = some (0xF0, 0) := by decide
/-- V53. -/
theorem test_add_reg_carry : after 0x8014 (with2 0 0xFA 1 0x0A) (regAndFlag 0) = some (4, 1) := by decide
/-- V59: the flag overwrites the sum. -/
theorem test_add_reg_vf : after 0x8F14 (with2 15 1 1 2) (·.readV 15) = some 0 := by decide
/-- V61. -/
theorem test_sub_borrow : after 0x8015 (with2 0 5 1 0x0A) (regAndFlag 0) = some (0xFB, 0) := by decide
/-- V63: equal operands do not borrow. -/
theorem test_sub_equal : after 0x8015 (with2 0 7 1 7) (regAndFlag 0) = some (0, 1) := by decide
/-- V69: `Y` is ignored. -/
theorem test_shr : after 0x8126 (with2 1 5 2 0xF0) (regAndFlag 1) = some (2, 1) := by decide
/-- V74. -/
theorem test_shr_vf : after 0x8F06 (with1 15 2) (·.readV 15) = some 0 := by decide
/-- V76. -/
theorem test_subn : after 0x8127 (with2 1 0x0A 2 5) (regAndFlag 1) = some (0xFB, 0) := by decide
/-- V80: `Y` is ignored. -/
theorem test_shl : after 0x81FE (with1 1 0xC1) (regAndFlag 1) = some (0x82, 1) := by decide
/-- V85. -/
theorem test_shl_vf : after 0x8F0E (with1 15 0x41) (·.readV 15) = some 0 := by decide
/-- V27. -/
theorem test_sne_reg : after 0x9120 (with2 1 1 2 2) (·.pc) = some 0x204 := by decide
/-- V101. -/
theorem test_ld_i : after 0xAFFF State.reset (·.i) = some 0x0FFF := by decide
/-- V15: the sum is not reduced to 12 bits. -/
theorem test_jp_v0 : after 0xBFFF (with1 0 0xFF) (·.pc) = some 0x10FE := by decide
/-- V88: whatever the draw is, the mask 0 gives 0. -/
theorem test_rnd_mask_zero :
    ∃ t, step ((with1 1 0x55).withFetchWord 16 0xC100) = .next t ∧ t.readV 1 = 0 ∧ t.draws = 1 :=
  ⟨_, rfl, by
    change (Config.freeByte 0 &&& 0 : Byte) = 0
    exact BitVec.and_zero, rfl⟩
/-- V131: wrap on the right edge. -/
theorem test_drw_wrap_x : after 0xD011 (((with1 0 0x3C).store 0x300 [0xFF]).setI 0x300)
    (fun t => (litRow 0 t, t.readV 15)) = some ([0, 1, 2, 3, 60, 61, 62, 63], 0) := by decide
/-- V139: coordinates from the old `VF`, and a collision. -/
theorem test_drw_collision : after 0xDFF1 (withCell 5 5 (((with1 15 5).store 0x300 [0x80]).setI 0x300))
    (fun t => (litRow 5 t, t.readV 15)) = some ([], 1) := by decide
/-- V153, at 0x200. -/
theorem test_skp : after 0xE19E ((with1 1 15).setKey 15 true) (·.pc) = some 0x204 := by decide
/-- V152, at 0x200. -/
theorem test_skp_range : after 0xE19E (with1 1 16) (fun t => (t.pc, t.fault)) =
    some (0x200, faultHere (.keyIndexRange 16)) := by decide
/-- V154 and V155, at 0x200. -/
theorem test_sknp : after 0xE1A1 (with1 1 9) (·.pc) = some 0x204 ∧
    after 0xE1A1 ((with1 1 9).setKey 9 true) (·.pc) = some 0x202 := by decide
/-- V162. -/
theorem test_ld_vx_dt : after 0xF307 (State.reset.setDT 3) (·.readV 3) = some 3 := by decide
/-- V157. -/
theorem test_ld_vx_k_wait : after 0xF10A State.reset (·.pc) = some 0x200 := by decide
/-- V159: the lowest key. -/
theorem test_ld_vx_k_lowest : after 0xF10A ((State.reset.setKey 7 true).setKey 3 true)
    (fun t => (t.readV 1, t.pc)) = some (3, 0x202) := by decide
/-- V164. -/
theorem test_ld_dt_vx : after 0xF215 (with1 2 3) (fun t => (t.dt, t.st)) = some (3, 0) := by decide
/-- V166. -/
theorem test_ld_st_vx : after 0xF118 (with1 1 9) (fun t => (t.dt, t.st, t.soundActive)) =
    some (0, 9, true) := by decide
/-- V104: wraps at 2^16 with no flag. -/
theorem test_add_i : after 0xF21E ((with1 2 2).setI 0xFFFF) (fun t => (t.i, t.readV 15)) = some (1, 0) := by
  decide
/-- V107: the whole byte is multiplied. -/
theorem test_ld_f : after 0xF129 (with1 1 0xFF) (·.i) = some 0x04FB := by decide
/-- V110. -/
theorem test_ld_b : after 0xF033 ((with1 0 0x9D).setI 0x300) (fun t => t.mem.readBytes 0x2FF 5) =
    some [0, 1, 5, 7, 0] := by decide
/-- V114: nothing is stored. -/
theorem test_ld_b_bounds : after 0xF033 ((with1 0 0x64).setI 0xFFE)
    (fun t => (t.mem.readBytes 0xFFE 2, t.fault)) = some ([0, 0], faultHere (.memoryBounds 0x1000)) := by
  decide
/-- V116. -/
theorem test_ld_mem_vx : after 0xF255 (((with2 0 0x11 1 0x22).writeV 2 0x33).writeV 3 0x44 |>.setI 0x400)
    (fun t => (t.mem.readBytes 0x400 4, t.i)) = some ([0x11, 0x22, 0x33, 0], 0x400) := by decide
/-- V118: nothing is stored, although the first byte would fit. -/
theorem test_ld_mem_vx_bounds : after 0xF155 ((with2 0 0xAB 1 0xCD).setI 0xFFF)
    (fun t => (Memory.read t.mem 0xFFF, t.fault)) = some (0, faultHere (.memoryBounds 0x1000)) := by decide
/-- V121: the glyph of the digit 0 (decision D4). -/
theorem test_ld_vx_mem : after 0xF465 State.reset (fun t => t.firstRegs 6) =
    some [0xF0, 0x90, 0x90, 0x90, 0xF0, 0] := by decide
/-- V122. -/
theorem test_ld_vx_mem_bounds : after 0xF165 ((with1 0 9).setI 0xFFF) (fun t => (t.readV 0, t.fault)) =
    some (9, faultHere (.memoryBounds 0x1000)) := by decide

/-! ## The step cycle and the host operations -/

/-- V26. -/
theorem test_decode_failure : after 0x5121 State.reset (fun t => (t.pc, t.fault)) =
    some (0x200, faultHere (.decodeFailure 0x5121)) := by decide
/-- V193. -/
theorem test_fetch_bounds : (stateOf (step (State.reset.setPC 0x1000))).map (·.fault) =
    some (some ⟨.memoryBounds 0x1000, some 0x1000⟩) := by decide
/-- V194: no alignment. -/
theorem test_fetch_odd : after 0x6007 (State.reset.setPC 0x201) (fun t => (t.pc, t.readV 0)) =
    some (0x203, 7) := by decide
/-- V170. -/
theorem test_tick : ((hostTick ((State.reset.setDT 3).setST 1)).dt, (hostTick ((State.reset.setDT 3).setST 1)).st) =
    (2, 0) := by decide
/-- V178 and the boundary of V180. -/
theorem test_load : (hostLoad [0x12, 0x34, 0x56] State.reset).mem.readBytes 0x1FF 5 = [0, 0x12, 0x34, 0x56, 0] ∧
    (hostLoad [0x12, 0x34, 0x56] State.reset).pc = 0x200 := by decide

/-! ## Witnesses: for each statement with hypotheses, values that meet them -/

/-- EncodeOfDecodeIsIdentity: a word with an ignored field. -/
theorem witness_encode_of_decode : decode 0x81FE = .ok (.shl 1 15) := by decide

/-- DecoderAgreesWithTheMap: a word of each of its three clauses. -/
theorem witness_decoder_map : decode 0x00EE = .ok .ret ∧ wellFormedWord 0x00EF = false ∧
    wellFormedWord 0x00EE = true := by decide

/-- StepRunsTheDecodedInstruction: a fault state; the first `PC` without two bytes; the last `PC` with two
bytes, with a legal and with an illegal word there. -/
theorem witness_step_cases :
    (State.reset.faulted .stackUnderflow).fault ≠ none ∧
    ((State.reset.setPC 0xFFF).fault = none ∧ 4096 ≤ (State.reset.setPC 0xFFF).pc.toNat + 1) ∧
    ((State.reset.setPC 0xFFE).fault = none ∧ (State.reset.setPC 0xFFE).pc.toNat + 1 < 4096 ∧
      decode (Memory.read (State.reset.setPC 0xFFE).mem 0xFFE ++
        Memory.read (State.reset.setPC 0xFFE).mem 0xFFF) = .ok .nop) ∧
    decode (Memory.read ((State.reset.setPC 0xFFE).store 0xFFE [0x51, 0x21]).mem 0xFFE ++
      Memory.read ((State.reset.setPC 0xFFE).store 0xFFE [0x51, 0x21]).mem 0xFFF) =
        .error (.unrecognized 0x5121) := by decide

/-- StepRunsTheDecodedInstruction: no instruction is decoded from a rejected word. -/
theorem witness_step_rejected : ∀ i, decode 0x5121 ≠ .ok i := by
  intro i h
  rw [show decode 0x5121 = .error (.unrecognized 0x5121) from by decide] at h
  cases h

/-- PlacedWordRunsNext. -/
theorem witness_placed_word : decodeTableWord 16 0xD018 = some (.drw 0 1 8) := by decide

/-- OnlyRndDependsOnTheDraw. -/
theorem witness_not_rnd : ∀ x nn, Instr.drw 0 1 8 ≠ .rnd x nn := by
  intro x nn h
  exact Instr.noConfusion h

/-- EachStateHasOnlyItsWriters: a change of each piece of state that some instruction writes. -/
theorem witness_writers :
    (∃ t, exec (.ldDTVx 1) (with1 1 9) = .next t ∧ t.dt ≠ (with1 1 9).dt) ∧
    (∃ t, exec (.ldSTVx 1) (with1 1 9) = .next t ∧ t.st ≠ (with1 1 9).st) ∧
    (∃ t, exec (.ldF 1) (with1 1 9) = .next t ∧ t.i ≠ (with1 1 9).i) ∧
    (∃ t, exec .cls (withCell 0 0 State.reset) = .next t ∧ t.disp ≠ (withCell 0 0 State.reset).disp) ∧
    (∃ t, exec (.ldB 1) (with1 1 9) = .next t ∧ t.mem ≠ (with1 1 9).mem) ∧
    (∃ t, exec (.call 0x300) State.reset = .next t ∧ t.stack ≠ State.reset.stack ∧ t.sp ≠ State.reset.sp) ∧
    (∃ t, exec (.rnd 1 9) State.reset = .next t ∧ t.draws ≠ State.reset.draws) :=
  ⟨⟨_, rfl, by decide⟩, ⟨_, rfl, by decide⟩, ⟨_, rfl, by decide⟩, ⟨_, rfl, by decide⟩,
    ⟨_, rfl, by decide⟩, ⟨_, rfl, by decide, by decide⟩, ⟨_, rfl, by decide⟩⟩

/-- RegistersChangeOnlyAsTabled and UnreadRegistersDoNotMatter: the register next to the operand's. -/
theorem witness_register_tables : writesReg (.ldVxMem 7) 8 = false ∧ writesReg (.addReg 1 2) 2 = false ∧
    readsReg (.ldMemVx 7) 8 = false ∧ readsReg (.drw 1 2 5) 15 = false ∧
    ∃ t, exec (.ldVxMem 7) State.reset = .next t :=
  ⟨by decide, by decide, by decide, by decide, _, rfl⟩

/-- PcAfterEveryInstruction: a step that faults, one that does not, a skip taken and not taken, a wait that
ends and one that goes on. -/
theorem witness_pc_after :
    (∃ t, exec .ret State.reset = .next t ∧ State.reset.fault = none ∧ t.fault ≠ none) ∧
    (∃ t, exec .ret (withSP 1) = .next t ∧ (withSP 1).fault = none ∧ t.fault = none) ∧
    skips (.seImm 1 0) State.reset ∧ ¬ skips (.sneImm 1 0) State.reset ∧
    (State.reset.setKey 15 true).key? 15 = some true ∧ (∀ k, State.reset.key? k ≠ some true) := by
  refine ⟨⟨_, rfl, rfl, by decide⟩, ⟨_, rfl, rfl, rfl⟩, by unfold skips; decide, by unfold skips; decide, by decide, ?_⟩
  intro k
  by_cases hk : k < 16
  · rw [State.key?_of_lt hk]
    simp [State.reset]
  · rw [State.key?_eq_none.mpr (by omega)]
    simp

/-- FaultsAreExactlyAsTabled: each entry of the table at the edge of its range. -/
theorem witness_fault_table :
    State.reset.fault = none ∧
    faultOf .ret State.reset = some .stackUnderflow ∧ faultOf .ret (withSP 1) = none ∧
    faultOf (.call 0) (withSP 16) = some .stackOverflow ∧ faultOf (.call 0) (withSP 15) = none ∧
    faultOf (.drw 0 1 15) (State.reset.setI 0xFF2) = some (.memoryBounds 4096) ∧
    faultOf (.drw 0 1 15) (State.reset.setI 0xFF1) = none ∧
    faultOf (.drw 0 1 0) (State.reset.setI 0xFFFF) = none ∧
    faultOf (.ldB 0) (State.reset.setI 0xFFE) = some (.memoryBounds 4096) ∧
    faultOf (.ldB 0) (State.reset.setI 0xFFD) = none ∧
    faultOf (.ldVxMem 0) (State.reset.setI 0x1000) = some (.memoryBounds 4096) ∧
    faultOf (.ldMemVx 0) (State.reset.setI 0xFFFF) = some (.memoryBounds 0xFFFF) ∧
    faultOf (.ldMemVx 15) (State.reset.setI 0xFF0) = none ∧
    faultOf (.skp 1) (with1 1 16) = some (.keyIndexRange 16) ∧ faultOf (.sknp 1) (with1 1 15) = none := by
  decide

/-- FaultsArePrecise: a step of each kind of fault begins with none and ends with one. -/
theorem witness_faulting_steps :
    (∃ t, step (State.reset.withFetchWord 16 0x00EE) = .next t ∧ t.fault ≠ none) ∧
    (∃ t, step ((withSP 16).withFetchWord 16 0x2300) = .next t ∧ t.fault ≠ none) ∧
    (∃ t, step (State.reset.withFetchWord 16 0x5121) = .next t ∧ t.fault ≠ none) ∧
    (∃ t, step (State.reset.setPC 0xFFF) = .next t ∧ t.fault ≠ none) ∧
    (∃ t, step ((with1 1 16).withFetchWord 16 0xE1A1) = .next t ∧ t.fault ≠ none) :=
  ⟨⟨_, rfl, by decide⟩, ⟨_, rfl, by decide⟩, ⟨_, rfl, by decide⟩, ⟨_, rfl, by decide⟩, ⟨_, rfl, by decide⟩⟩

/-- FaultIsStickyUntilReset: a fault state, and a schedule without `INIT` and `RESET`. -/
theorem witness_sticky : (State.reset.faulted .stackUnderflow).fault ≠ none ∧
    HostOp.init ∉ [HostOp.step, .tick, .load [0x12], .setKey 9 true] ∧
    HostOp.reset ∉ [HostOp.step, .tick, .load [0x12], .setKey 9 true] := by decide

/-- StepKeepsInv: a state with the invariant, at the edge of `PC`, with a live entry, and memory listed. -/
theorem witness_inv : State.Inv { State.reset with
      pc := 0x10FE, sp := 1, stack := State.reset.stack.set 0 0x1000, mem := [(0x300, 0xFF)] } ∧
    ∃ t, step (State.reset.withFetchWord 16 0x2300) = .next t := by
  refine ⟨⟨by decide, ?_, by decide⟩, _, rfl⟩
  intro k _ h
  have hk : k = 0 := by
    change k < 1 at h
    omega
  subst hk
  exact (by decide : 2 ≤ (0x1000 : Word).toNat ∧ (0x1000 : Word).toNat ≤ 0x1000)

/-- EveryReachableStateMeetsInv. -/
theorem witness_reachable : Reachable State.reset ∧ Reachable (hostTick (hostSetKey 9 true State.reset)) :=
  ⟨⟨[], rfl⟩, ⟨[.setKey 9 true, .tick], rfl⟩⟩

/-- LoadPlacesTheImage and InitThenLoadKeepsGlyphs: the largest image that fits, and the smallest that does
not, with and without a fault before it. -/
theorem witness_load_lengths : (List.replicate 3584 (0 : Byte)).length ≤ 3584 ∧
    3584 < (List.replicate 3585 (0 : Byte)).length ∧ State.reset.fault = none ∧
    (State.reset.faulted .stackUnderflow).fault ≠ none ∧ 2 < [(0x12 : Byte), 0x34, 0x56].length := by
  refine ⟨?_, ?_, rfl, by decide, by decide⟩
  · rw [List.length_replicate]
  · rw [List.length_replicate]
    decide

/-- RetPopsTheReturnAddress, CallPushesTheReturnAddress and RetAfterCallComesBack: the edges of `SP`. -/
theorem witness_stack_edges : 0 < (withSP 1).sp.val ∧ 0 < (withSP 16).sp.val ∧ (withSP 0).sp.val = 0 ∧
    (withSP 15).sp.val < 16 ∧ (withSP 0).sp.val < 16 ∧ (withSP 16).sp.val = 16 ∧
    ∀ n, (withSP n).fault = none := by decide

/-- JumpsSetPc: a jump to its own address. -/
theorem witness_jump_to_self : State.reset.pc.toNat = (0x200 : Addr12).toNat := by decide

/-- AddRegisterSetsCarry, SubtractsSetNoBorrow, ShiftsMoveOneBitToVf and DrawingTwiceRestores: an operand
that is not `VF`. -/
theorem witness_not_vf : (14 : RegIdx) ≠ 15 := by decide

/-- FlagIsZeroOrOne: each instruction that sets the flag, completing, with `VF` among its operands, and
both outcomes of a draw. -/
theorem witness_flag :
    (∃ t, exec (.addReg 15 1) (with1 15 9) = .next t ∧ t.fault = none) ∧
    (∃ t, exec (.sub 15 1) (with1 15 9) = .next t ∧ t.fault = none) ∧
    (∃ t, exec (.shr 15 1) (with1 15 9) = .next t ∧ t.fault = none) ∧
    (∃ t, exec (.subn 15 1) (with1 15 9) = .next t ∧ t.fault = none) ∧
    (∃ t, exec (.shl 15 1) (with1 15 9) = .next t ∧ t.fault = none) ∧
    (∃ t, exec (.drw 1 1 1) (with1 15 9) = .next t ∧ t.fault = none ∧ t.readV 15 = 0) ∧
    (∃ t, exec (.drw 1 1 1) (withCell 0 0 (with1 15 9)) = .next t ∧ t.fault = none ∧ t.readV 15 = 1) :=
  ⟨⟨_, rfl, rfl⟩, ⟨_, rfl, rfl⟩, ⟨_, rfl, rfl⟩, ⟨_, rfl, rfl⟩, ⟨_, rfl, rfl⟩,
    ⟨_, rfl, rfl, by decide⟩, ⟨_, rfl, rfl, by decide⟩⟩

/-- BcdStoresThreeDigits, BulkStoreCopiesRegisters, BulkLoadCopiesMemory and BulkLoadUndoesBulkStore: the
last range that fits and the first that does not. -/
theorem witness_ranges :
    (State.reset.setI 0xFFD).i.toNat + 2 < 4096 ∧ 4096 ≤ (State.reset.setI 0xFFE).i.toNat + 2 ∧
    (State.reset.setI 0xFF0).i.toNat + (15 : RegIdx).toNat < 4096 ∧
    4096 ≤ (State.reset.setI 0xFF1).i.toNat + (15 : RegIdx).toNat ∧
    (State.reset.setI 0xFFF).i.toNat + (0 : RegIdx).toNat < 4096 ∧
    4096 ≤ (State.reset.setI 0x1000).i.toNat + (0 : RegIdx).toNat ∧
    (State.reset.setI 0x1000).fault = none ∧ (List.replicate 16 (0xAA : Byte)).length ≤ 16 := by decide

/-- StoreIsSeenByTheNextFetch: the store of program P6, on the instruction that follows it. -/
theorem witness_self_modifying :
    (((with2 0 0x12 1 0x0C).setPC 0x206).setI 0x208).fault = none ∧ 1 ≤ (1 : RegIdx).toNat ∧
    (((with2 0 0x12 1 0x0C).setPC 0x206).setI 0x208).i.toNat + (1 : RegIdx).toNat < 4096 ∧
    (((with2 0 0x12 1 0x0C).setPC 0x206).setI 0x208).pc + 2 =
      (((with2 0 0x12 1 0x0C).setPC 0x206).setI 0x208).i ∧
    decode ((((with2 0 0x12 1 0x0C).setPC 0x206).setI 0x208).readV 0 ++
      (((with2 0 0x12 1 0x0C).setPC 0x206).setI 0x208).readV 1) = .ok (.jp 0x20C) := by decide

/-- DrwTogglesExactlyTheSprite and DrawingTwiceRestores: no rows with `I` at its highest; the last sprite
that fits; the first that does not. -/
theorem witness_draw_ranges : (0 : Nibble).toNat = 0 ∧
    (State.reset.setI 0xFF1).i.toNat + (15 : Nibble).toNat ≤ 4096 ∧ (15 : Nibble).toNat ≠ 0 ∧
    4096 < (State.reset.setI 0xFF2).i.toNat + (15 : Nibble).toNat ∧
    (State.reset.setI 0xFF2).fault = none := by decide

/-- DrwTogglesExactlyTheSprite: the sprite of V131 has a 1 bit for the wrapped column 3 and none for the
column 4, and collides with a lit cell in column 3. -/
theorem witness_sprite_bit :
    spriteBit (((with1 0 0x3C).store 0x300 [0xFF]).setI 0x300) 0 1 1 0 3 ∧
    ¬ spriteBit (((with1 0 0x3C).store 0x300 [0xFF]).setI 0x300) 0 1 1 0 4 ∧
    (withCell 0 3 (((with1 0 0x3C).store 0x300 [0xFF]).setI 0x300)).disp.cell 0 3 = true := by
  refine ⟨⟨0, 7, by decide, by decide, by decide, by decide, by decide⟩, ?_, by decide⟩
  rintro ⟨row, col, -, hcol, -, -, h⟩
  change (60 + col) % 64 = 4 at h
  omega

/-- KeySkips: the highest key and the first number that is no key. -/
theorem witness_key_range : ((with1 1 15).readV 1).toNat ≤ 15 ∧ 15 < ((with1 1 16).readV 1).toNat ∧
    (with1 1 16).fault = none := by decide

/-- WaitForKeyTakesTheLeast: key 3 down with a higher one, and no key down. -/
theorem witness_wait : (((State.reset.setKey 7 true).setKey 3 true).key? 3 = some true ∧
    ∀ j, j < 3 → ((State.reset.setKey 7 true).setKey 3 true).key? j = some false) ∧
    ∀ k, k < 16 → State.reset.key? k = some false := by decide

/-- SetKeyWritesOneLatch: the highest latch, the first index that has none, another index, and an operation
that changes a latch. -/
theorem witness_set_key : ((15 : Nat) ≤ 15 ∧ 15 < (16 : Nat) ∧ (14 : Nat) ≠ 15) ∧
    ∃ t, applyOp (.setKey 15 true) State.reset = .next t ∧ t.key ≠ State.reset.key :=
  ⟨by decide, _, rfl, by decide⟩

/-- ResetStateIsAsTabled: the edges of its ranges of addresses, and a stack entry and a latch. -/
theorem witness_reset_ranges : (79 : Nat) < 80 ∧ 80 ≤ (80 : Nat) ∧ (80 : Nat) < 4096 ∧ (4095 : Nat) < 4096 ∧
    (15 : Nat) < 16 := by decide

end Sys2Proof.Tests
end

namespace Sys2Proof.Machine

/-! ## What every instruction does

Each instruction faults as the table of faults says, with nothing but `FAULT` changed, or it completes: then
`PC` goes where rule R17 of 10_state.md sends it, memory receives the bytes stored, and nothing else changes
but what `touched` names. This is the one case split over what `exec` does; the statements on registers, `PC`
and the invariant follow from it. -/

@[simp] theorem zext16_toNat_addr (nnn : Addr12) : (zext16 nnn).toNat = nnn.toNat :=
  BitVec.toNat_setWidth_of_le (by decide)

@[simp] theorem zext16_toNat_byte (b : Byte) : (zext16 b).toNat = b.toNat :=
  BitVec.toNat_setWidth_of_le (by decide)

/-- A skip is four bytes past the instruction or two (40_control.md rule R89). -/
theorem State.skipIf_advance_pc (s : State) (c : Bool) :
    (s.advance.skipIf c).pc = if c then s.pc + 4 else s.pc + 2 := by
  rw [State.skipIf_pc, State.advance_pc, BitVec.add_assoc]
  rfl

/-- The bytes an instruction that completes stores from `I` up (42_index_memory.md rules R123 and R124). -/
def stored (i : Instr) (s : State) : List Byte :=
  match i with
  | .ldB x => bcdDigits (s.readV x)
  | .ldMemVx x => s.firstRegs (bulkCount x)
  | _ => []

/-- What an instruction that completes may change besides `PC`, the registers by the table of rule R12
(10_state.md). -/
def touched (i : Instr) (s : State) : Touched where
  regs := fun r => writesReg i r = true
  bytes := fun a => s.base ≤ a ∧ a < s.base + (stored i s).length
  index := match i with | .ldI _ | .addI _ | .ldF _ => True | _ => False
  stack := match i with | .ret | .call _ => True | _ => False
  delay := match i with | .ldDTVx _ => True | _ => False
  sound := match i with | .ldSTVx _ => True | _ => False
  display := match i with | .cls | .drw _ _ _ => True | _ => False
  draws := match i with | .rnd _ _ => True | _ => False

/-- Where `PC`, now `w`, is after an instruction that completes in `s` (10_state.md rule R17). -/
def PcAfter (i : Instr) (s : State) (w : Word) : Prop :=
  match i with
  | .jp nnn | .call nnn => w.toNat = nnn.toNat
  | .ret => s.stack[s.sp.val - 1]? = some w
  | .jpV0 nnn => w.toNat = nnn.toNat + (s.readV 0).toNat
  | .ldVxK _ =>
    ((∃ k, s.key? k = some true) → w = s.pc + 2) ∧ ((∀ k, s.key? k ≠ some true) → w = s.pc)
  | j => (skips j s → w = s.pc + 4) ∧ (¬ skips j s → w = s.pc + 2)

/-- `i` completed in `s` with `t`: where `PC` went, what was stored, and that nothing else changed but
what `touched` names. -/
structure Completes (i : Instr) (s t : State) : Prop where
  pc : PcAfter i s t.pc
  mem : t.mem = s.mem.writeBytes s.base (stored i s)
  keeps : Keeps (touched i s) s t

/-- An instruction faults as the table of faults says, or it completes. -/
def FaultsOrCompletes (i : Instr) (s : State) : Prop :=
  (∃ c, faultOf i s = some c ∧ exec i s = faultStep c s) ∨
    (faultOf i s = none ∧ ∃ t, exec i s = .next t ∧ Completes i s t)

/-- The target of `JP V0` is the exact sum (40_control.md rule R84). -/
theorem jpV0_toNat (nnn : Addr12) (b : Byte) :
    (zext16 nnn + zext16 b).toNat = nnn.toNat + b.toNat := by
  have hn := nnn.isLt
  have hb := b.isLt
  rw [BitVec.toNat_add_of_lt (by rw [zext16_toNat_addr, zext16_toNat_byte]; omega),
    zext16_toNat_addr, zext16_toNat_byte]

/-- An access of `len` bytes from `I` up faults out of range and completes in range (20_memory.md rule
R53). -/
theorem FaultsOrCompletes.of_range {i : Instr} {len : Nat} {s t : State}
    (hx : exec i s = withRange s.base len s (.next t))
    (hf : faultOf i s =
      if len ≠ 0 ∧ 4096 < s.base + len then some (.memoryBounds (max s.base 4096)) else none)
    (hc : Completes i s t) : FaultsOrCompletes i s := by
  by_cases h : len = 0 ∨ s.base + len ≤ 4096
  · exact .inr ⟨by rw [hf, if_neg (by omega)], t, by rw [hx, withRange_of_fits h], hc⟩
  · have h0 : len ≠ 0 := by omega
    have hlt : 4096 < s.base + len := by omega
    exact .inl ⟨_, by rw [hf, if_pos ⟨h0, hlt⟩], by rw [hx, withRange_of_exceeds h0 hlt]⟩

/-- `RET` with a live entry. -/
theorem exec_ret {s : State} (h : 0 < s.sp.val) : exec .ret s =
    .next { s with pc := s.stack[s.sp.val - 1]'(by omega), sp := ⟨s.sp.val - 1, by omega⟩ } := by
  change execRet s = _
  simp [execRet, State.pop?, h, State.setPC, State.advance]

theorem exec_ret_of_empty {s : State} (h : s.sp.val = 0) :
    exec .ret s = faultStep .stackUnderflow s := by
  change execRet s = _
  simp [execRet, State.pop?, h]

/-- `CALL` with an entry free. -/
theorem exec_call {nnn : Addr12} {s : State} (h : s.sp.val < 16) : exec (.call nnn) s =
    .next { s with pc := zext16 nnn, stack := s.stack.set s.sp.val (s.pc + 2) h,
                   sp := ⟨s.sp.val + 1, Nat.succ_lt_succ h⟩ } := by
  change execCall nnn s = _
  simp [execCall, State.push?, h, State.setPC, State.advance]

theorem exec_call_of_full {nnn : Addr12} {s : State} (h : s.sp.val = 16) :
    exec (.call nnn) s = faultStep .stackOverflow s := by
  change execCall nnn s = _
  simp [execCall, State.push?, h]

/-- `RET` pops, or underflows with no live entry (40_control.md rule R81). -/
theorem ret_faults_or_completes (s : State) : FaultsOrCompletes .ret s := by
  rcases Nat.eq_zero_or_pos s.sp.val with h | h
  · exact .inl ⟨_, if_pos h, exec_ret_of_empty h⟩
  · refine .inr ⟨if_neg (by omega), _, exec_ret h, ?_, rfl, ?_⟩
    · simp [PcAfter]
    · simp [Keeps, touched, State.readV]

/-- `CALL` pushes, or overflows with 16 live entries (40_control.md rule R83). -/
theorem call_faults_or_completes (nnn : Addr12) (s : State) : FaultsOrCompletes (.call nnn) s := by
  have hle := s.sp_le
  by_cases h : s.sp.val < 16
  · refine .inr ⟨if_neg (by omega), _, exec_call h, zext16_toNat_addr nnn, rfl, ?_⟩
    simp [Keeps, touched, State.readV]
  · have hfull : s.sp.val = 16 := by omega
    exact .inl ⟨_, if_pos hfull, exec_call_of_full hfull⟩

/-- A skip on a condition completes with the advance and, where the condition holds, the skip. -/
theorem completes_skipIf {i : Instr} {s : State} {c : Bool}
    (hp : PcAfter i s (if c then s.pc + 4 else s.pc + 2)) (hm : stored i s = []) :
    Completes i s (s.advance.skipIf c) := by
  refine ⟨?_, ?_, by simp [Keeps]⟩
  · rw [State.skipIf_advance_pc]
    exact hp
  · rw [hm, State.skipIf_mem]
    rfl

/-- `SKP` and `SKNP` skip on a latch, or fault where no latch has the number (44_keypad_timers.md rules
R140 and R141). -/
theorem keySkip_faults_or_completes (x : RegIdx) (s : State) :
    FaultsOrCompletes (.skp x) s ∧ FaultsOrCompletes (.sknp x) s := by
  by_cases h : 15 < (s.readV x).toNat
  · have hk : s.key? (s.readV x).toNat = none := State.key?_eq_none.mpr h
    exact ⟨.inl ⟨_, if_pos h, by simp [exec, execSkp, hk]⟩,
      .inl ⟨_, if_pos h, by simp [exec, execSknp, hk]⟩⟩
  · obtain ⟨down, hk⟩ : ∃ down, s.key? (s.readV x).toNat = some down :=
      ⟨_, State.key?_of_lt (by omega)⟩
    exact ⟨.inr ⟨if_neg h, s.advance.skipIf down, by simp [exec, execSkp, hk],
        completes_skipIf (by simp +contextual [PcAfter, skips, hk]) rfl⟩,
      .inr ⟨if_neg h, s.advance.skipIf !down, by simp [exec, execSknp, hk],
        completes_skipIf (by simp +contextual [PcAfter, skips, hk]) rfl⟩⟩

/-- `LD VX, K` takes the least key, or waits with the state as it was (44_keypad_timers.md rule R142). -/
theorem ldVxK_faults_or_completes (x : RegIdx) (s : State) : FaultsOrCompletes (.ldVxK x) s := by
  cases h : s.firstPressed with
  | none =>
    refine .inr ⟨rfl, s, by simp [exec, execLdVxK, h], ?_, rfl, by simp [Keeps]⟩
    have hk := State.firstPressed_eq_none.mp h
    exact ⟨fun ⟨k, hd⟩ => absurd hd (hk k), fun _ => rfl⟩
  | some k =>
    refine .inr ⟨rfl, s.advance.writeV x (BitVec.ofNat 8 k), by simp [exec, execLdVxK, h], ?_, rfl, ?_⟩
    · exact ⟨fun _ => rfl, fun hno => absurd (State.firstPressed_eq_some.mp h).1 (hno k)⟩
    · simp +contextual [Keeps, touched, writesReg]

theorem drw_faults_or_completes (x y : RegIdx) (n : Nibble) (s : State) :
    FaultsOrCompletes (.drw x y n) s := by
  refine .of_range (len := n.toNat) rfl ?_ ⟨?_, rfl, ?_⟩
  · exact if_congr (by simp [State.base, Nat.one_le_iff_ne_zero]) rfl rfl
  · simp [PcAfter, skips]
  · simp +contextual [Keeps, touched, writesReg, flagReg]

theorem ldB_faults_or_completes (x : RegIdx) (s : State) : FaultsOrCompletes (.ldB x) s := by
  refine .of_range (len := 3) rfl ?_ ⟨?_, rfl, ?_⟩
  · exact if_congr (by simp [State.base]) rfl rfl
  · simp [PcAfter, skips]
  · simp +contextual [Keeps, touched, stored, Memory.read_writeBytes]

theorem ldMemVx_faults_or_completes (x : RegIdx) (s : State) :
    FaultsOrCompletes (.ldMemVx x) s := by
  refine .of_range (len := bulkCount x) rfl ?_ ⟨?_, rfl, ?_⟩
  · exact if_congr (by simp [State.base, bulkCount, Nat.add_assoc]) rfl rfl
  · simp [PcAfter, skips]
  · simp +contextual [Keeps, touched, stored, Memory.read_writeBytes]

theorem ldVxMem_faults_or_completes (x : RegIdx) (s : State) :
    FaultsOrCompletes (.ldVxMem x) s := by
  refine .of_range (len := bulkCount x) rfl ?_ ⟨?_, ?_, ?_⟩
  · exact if_congr (by simp [State.base, bulkCount, Nat.add_assoc]) rfl rfl
  · simp [PcAfter, skips]
  · simp [stored, Memory.writeBytes]
  · have hx := x.isLt
    have hlen : (s.mem.readBytes s.base (bulkCount x)).length = x.toNat + 1 :=
      Memory.readBytes_length _ _ _
    have hregs : ∀ r : RegIdx, x.toNat < r.toNat →
        (s.advance.loadRegs 0 (s.mem.readBytes s.base (bulkCount x))).readV r = s.readV r := by
      intro r hr
      rw [State.readV_loadRegs _ _ _ _ (by omega), if_neg (by omega), State.readV_advance]
    simpa [Keeps, touched, writesReg] using hregs

/-- What every instruction does, from every state. -/
theorem exec_faults_or_completes (i : Instr) (s : State) : FaultsOrCompletes i s := by
  cases i with
  | nop | cls | jp nnn | ldImm x nn | addImm x nn | ldReg x y | or x y | and x y | xor x y
  | addReg x y | sub x y | shr x y | subn x y | shl x y | ldI nnn | rnd x nn | ldVxDT x | ldDTVx x
  | ldSTVx x | addI x | ldF x =>
    refine .inr ⟨rfl, _, rfl, ?_, rfl, ?_⟩
    · simp [PcAfter, skips]
    · simp +contextual [Keeps, touched, writesReg, flagReg]
  | seImm x nn | sneImm x nn | seReg x y | sneReg x y =>
    exact .inr ⟨rfl, _, rfl, completes_skipIf (by simp +contextual [PcAfter, skips]) rfl⟩
  | jpV0 nnn => exact .inr ⟨rfl, _, rfl, jpV0_toNat nnn _, rfl, by simp [Keeps, touched]⟩
  | ret => exact ret_faults_or_completes s
  | call nnn => exact call_faults_or_completes nnn s
  | skp x => exact (keySkip_faults_or_completes x s).1
  | sknp x => exact (keySkip_faults_or_completes x s).2
  | ldVxK x => exact ldVxK_faults_or_completes x s
  | drw x y n => exact drw_faults_or_completes x y n s
  | ldB x => exact ldB_faults_or_completes x s
  | ldMemVx x => exact ldMemVx_faults_or_completes x s
  | ldVxMem x => exact ldVxMem_faults_or_completes x s

/-- Every instruction answers a next state (45_host_operations.md rule R154). -/
theorem exec_answers (i : Instr) (s : State) : ∃ t, exec i s = .next t := by
  rcases exec_faults_or_completes i s with ⟨_, _, h⟩ | ⟨_, t, h, _⟩
  · exact ⟨_, h⟩
  · exact ⟨t, h⟩

/-- What the next state of an instruction can be. -/
theorem exec_next_cases {i : Instr} {s t : State} (h : exec i s = .next t) :
    (∃ c, faultOf i s = some c ∧ t = s.raise c (some s.pc)) ∨
      (faultOf i s = none ∧ Completes i s t) := by
  rcases exec_faults_or_completes i s with ⟨c, hc, hx⟩ | ⟨hc, u, hx, hu⟩
  · exact .inl ⟨c, hc, Host.Outcome.next.inj (h.symm.trans hx)⟩
  · exact .inr ⟨hc, Host.Outcome.next.inj (hx.symm.trans h) ▸ hu⟩

theorem Completes.fault {i : Instr} {s t : State} (h : Completes i s t) : t.fault = s.fault := by
  obtain ⟨-, -, -, -, -, -, -, hfault, -, -⟩ := h.keeps
  exact hfault not_false

theorem Completes.readV {i : Instr} {s t : State} (h : Completes i s t) {r : RegIdx}
    (hr : writesReg i r = false) : t.readV r = s.readV r := by
  obtain ⟨hregs, -⟩ := h.keeps
  exact hregs r (by simp [touched, hr])

/-! ## Registers and `PC` -/

/-- Settles O10: a fault writes no register, and an instruction that completes keeps every register that
the table of rule R12 does not let it write. -/
theorem registersChangeOnlyAsTabled : Obligations.RegistersChangeOnlyAsTabled := by
  unfold Obligations.RegistersChangeOnlyAsTabled
  intro i s t r h hr
  rcases exec_next_cases h with ⟨c, -, rfl⟩ | ⟨-, hc⟩
  · exact State.readV_raise s c _ r
  · exact hc.readV hr

/-- Settles O12: a fault leaves `PC` where it was, and an instruction that completes takes it where rule R17
says. -/
theorem pcAfterEveryInstruction : Obligations.PcAfterEveryInstruction := by
  unfold Obligations.PcAfterEveryInstruction
  intro i s t hs h
  rcases exec_next_cases h with ⟨c, -, rfl⟩ | ⟨-, hc⟩
  · refine ⟨fun _ => State.raise_pc s c _, fun ht => ?_⟩
    simp [State.raise_of_none hs] at ht
  · refine ⟨fun ht => absurd (hc.fault.trans hs) ht, fun _ => ?_⟩
    have hpc := hc.pc
    cases i <;> exact hpc

/-! ## The invariant -/

/-- What a step can do (45_host_operations.md rule R152): nothing in the fault state, a fault of the fetch
or of the decoder, or one instruction fetched from inside memory. -/
theorem step_next_cases {s t : State} (h : step s = .next t) :
    t = s ∨ (∃ c, t = s.raise c (some s.pc)) ∨
      ∃ i, s.fault = none ∧ s.pc.toNat + 2 ≤ 4096 ∧ exec i s = .next t := by
  cases hf : s.fault with
  | some f =>
    rw [step, stepCycle, hf] at h
    exact .inl (Host.Outcome.next.inj h).symm
  | none =>
    rw [step, stepCycle, hf] at h
    rcases withRange_cases h with ⟨hfit, hx⟩ | ⟨-, -, hx⟩
    · rw [decodeAndExec] at hx
      cases hd : decode s.opcode with
      | ok i =>
        rw [hd] at hx
        exact .inr (.inr ⟨i, rfl, by simpa [Config.insnWidth] using hfit, hx.symm⟩)
      | error e =>
        rw [hd] at hx
        exact .inr (.inl ⟨_, Host.Outcome.next.inj hx⟩)
    · exact .inr (.inl ⟨_, Host.Outcome.next.inj hx⟩)

/-- The invariant speaks of `PC`, the stack, its count and memory. -/
theorem State.Inv.congr {s t : State} (hs : s.Inv) (hpc : t.pc = s.pc) (hstack : t.stack = s.stack)
    (hsp : t.sp = s.sp) (hmem : t.mem = s.mem) : t.Inv := by
  rw [State.Inv, hpc, hstack, hsp, hmem]
  exact hs

theorem State.Inv.raise {s : State} (hs : s.Inv) (c : FaultCause) (a : Option Word) :
    (s.raise c a).Inv := hs.congr (by simp) (by simp) (by simp) (by simp)

/-- What an instruction stores without a fault lies inside memory (20_memory.md rule R53). -/
theorem stored_fits {i : Instr} {s : State} (hf : faultOf i s = none) :
    stored i s = [] ∨ s.base + (stored i s).length ≤ Config.memSize := by
  cases i with
  | ldB x =>
    have hfit : ¬ 4096 < s.base + 3 := by simpa [faultOf, State.base] using hf
    exact .inr (Nat.le_of_not_lt hfit)
  | ldMemVx x =>
    have hfit : ¬ 4096 < s.base + x.toNat + 1 := by simpa [faultOf, State.base] using hf
    have hlen : (stored (.ldMemVx x) s).length ≤ x.toNat + 1 :=
      (State.firstRegs_length s _).trans_le (Nat.min_le_left _ _)
    exact .inr (by rw [Config.memSize]; omega)
  | _ => exact .inl rfl

/-- An instruction that completes keeps memory in its canonical form (log entry 10). -/
theorem Completes.wf_mem {i : Instr} {s t : State} (hc : Completes i s t) (hf : faultOf i s = none)
    (hw : Memory.wf s.mem = true) : Memory.wf t.mem = true := by
  rw [hc.mem]
  rcases stored_fits hf with hnil | hfit
  · rw [hnil]
    exact hw
  · exact Memory.wf_writeBytes hw hfit

/-- The second clause of the invariant: every live stack entry is from 2 to 0x1000 (10_state.md rules R22
and R29). -/
def LiveEntries (s : State) : Prop :=
  ∀ k (h : k < 16), k < s.sp.val → 2 ≤ s.stack[k].toNat ∧ s.stack[k].toNat ≤ 0x1000

/-- From an instruction inside memory `PC` does not wrap. -/
theorem pc_add_toNat {w n : Word} (hw : w.toNat + 2 ≤ 4096) (hn : n.toNat ≤ 4) :
    (w + n).toNat = w.toNat + n.toNat :=
  BitVec.toNat_add_of_lt (by omega)

/-- Live stack entries stay return addresses: `RET` drops one, and `CALL` adds the address after an
instruction inside memory. -/
theorem Completes.liveEntries {i : Instr} {s t : State} (hc : Completes i s t)
    (hx : exec i s = .next t) (hf : faultOf i s = none) (hpc : s.pc.toNat + 2 ≤ 4096)
    (hs : LiveEntries s) : LiveEntries t := by
  have hsame : ¬ (touched i s).stack → LiveEntries t := by
    intro hn
    obtain ⟨-, -, -, hstack, -⟩ := hc.keeps
    obtain ⟨hst, hsp⟩ := hstack hn
    rw [LiveEntries, hst, hsp]
    exact hs
  cases i with
  | ret =>
    have hsp : 0 < s.sp.val := by simpa [faultOf, Nat.pos_iff_ne_zero] using hf
    obtain rfl := Host.Outcome.next.inj ((exec_ret hsp).symm.trans hx)
    intro k hk hlive
    exact hs k hk (Nat.lt_of_lt_of_le hlive (Nat.sub_le _ _))
  | call nnn =>
    have hne : s.sp.val ≠ 16 := by simpa [faultOf] using hf
    have hsp : s.sp.val < 16 := Nat.lt_of_le_of_ne s.sp_le hne
    obtain rfl := Host.Outcome.next.inj ((exec_call hsp).symm.trans hx)
    intro k hk hlive
    have hlive' : k < s.sp.val + 1 := hlive
    change 2 ≤ ((s.stack.set s.sp.val (s.pc + 2) hsp)[k]).toNat ∧
      ((s.stack.set s.sp.val (s.pc + 2) hsp)[k]).toNat ≤ 0x1000
    rw [Vector.getElem_set]
    split
    · rw [pc_add_toNat hpc (by decide)]
      change 2 ≤ s.pc.toNat + 2 ∧ s.pc.toNat + 2 ≤ 4096
      omega
    · exact hs k hk (by omega)
  | _ => exact hsame id

/-- `PC` after an instruction inside memory is at most 0xFFF + 0xFF, the highest target of `JP V0`
(10_state.md rule R18). -/
theorem PcAfter.le_bound {i : Instr} {s : State} {w : Word} (h : PcAfter i s w)
    (hf : faultOf i s = none) (hpc : s.pc.toNat + 2 ≤ 4096) (hs : LiveEntries s) :
    w.toNat ≤ 0x10FE := by
  have htwo : (s.pc + 2).toNat = s.pc.toNat + 2 := pc_add_toNat hpc (by decide)
  have hfour : (s.pc + 4).toNat = s.pc.toNat + 4 := pc_add_toNat hpc (by decide)
  have hskip : (skips i s → w = s.pc + 4) ∧ (¬ skips i s → w = s.pc + 2) → w.toNat ≤ 0x10FE := by
    rintro ⟨hyes, hno⟩
    by_cases hk : skips i s
    · rw [hyes hk]
      omega
    · rw [hno hk]
      omega
  cases i with
  | jp nnn | call nnn =>
    have hn := nnn.isLt
    have hw : w.toNat = nnn.toNat := h
    omega
  | jpV0 nnn =>
    have hn := nnn.isLt
    have hb := (s.readV 0).isLt
    have hw : w.toNat = nnn.toNat + (s.readV 0).toNat := h
    omega
  | ret =>
    have hsp : 0 < s.sp.val := by simpa [faultOf, Nat.pos_iff_ne_zero] using hf
    have hle := s.sp_le
    obtain ⟨hk, hw⟩ := Vector.getElem?_eq_some_iff.mp h
    have hlive := hs (s.sp.val - 1) hk (by omega)
    rw [hw] at hlive
    omega
  | ldVxK x =>
    obtain ⟨hyes, hno⟩ := h
    by_cases hk : ∃ k, s.key? k = some true
    · rw [hyes hk]
      omega
    · rw [hno (not_exists.mp hk)]
      omega
  | _ => exact hskip h

/-- Settles O19: a step does nothing, takes a fault, or completes an instruction fetched from inside memory,
which keeps each clause of the invariant. -/
theorem stepKeepsInv : Obligations.StepKeepsInv := by
  unfold Obligations.StepKeepsInv
  intro s t hs h
  rcases step_next_cases h with rfl | ⟨c, rfl⟩ | ⟨i, -, hpc, hx⟩
  · exact hs
  · exact hs.raise c _
  rcases exec_next_cases hx with ⟨c, -, rfl⟩ | ⟨hf, hc⟩
  · exact hs.raise c _
  obtain ⟨-, hlive, hwf⟩ := hs
  exact ⟨hc.pc.le_bound hf hpc hlive, hc.liveEntries hx hf hpc hlive, hc.wf_mem hf hwf⟩

/-! ## Reachable states -/

theorem reset_inv : State.reset.Inv := by
  refine ⟨by decide, ?_, Memory.wf_reset⟩
  intro k _ hlive
  exact absurd hlive (Nat.not_lt_zero k)

/-- Settles O18: no entry is live at reset and memory lists nothing. -/
theorem resetMeetsInv : Obligations.ResetMeetsInv := reset_inv

/-- A load that fits keeps memory in its canonical form, and any other load only records a fault. -/
theorem State.Inv.hostLoad {s : State} (hs : s.Inv) (image : List Byte) :
    (hostLoad image s).Inv := by
  unfold Machine.hostLoad
  split
  next h =>
    obtain ⟨hpc, hlive, hwf⟩ := hs
    refine ⟨hpc, hlive, Memory.wf_writeBytes hwf ?_⟩
    rw [Config.memSize, Config.base]
    have hfit := rangeFault_eq_none.mp h
    rw [Config.base] at hfit
    omega
  next => exact hs.raise _ _

/-- Every host operation keeps the invariant. -/
theorem applyOp_keeps_inv {op : HostOp} {s t : State} (hs : s.Inv) (h : applyOp op s = .next t) :
    t.Inv := by
  cases op with
  | init | reset =>
    obtain rfl := Host.Outcome.next.inj h
    exact reset_inv.congr rfl rfl rfl rfl
  | load image =>
    obtain rfl := Host.Outcome.next.inj h
    exact hs.hostLoad image
  | step => exact stepKeepsInv s t hs h
  | tick =>
    obtain rfl := Host.Outcome.next.inj h
    exact hs.congr rfl rfl rfl rfl
  | setKey k pressed =>
    obtain rfl := Host.Outcome.next.inj h
    exact hs.congr (State.setKey_pc s k pressed) (State.setKey_stack s k pressed)
      (State.setKey_sp s k pressed) (State.setKey_mem s k pressed)

theorem decodeAndExec_answers (s : State) : ∃ t, decodeAndExec s = .next t := by
  unfold decodeAndExec
  split
  · exact exec_answers _ s
  · exact ⟨_, rfl⟩

theorem withRange_answers {body : Out State} (h : ∃ t, body = .next t) (start len : Nat) (s : State) :
    ∃ t, withRange start len s body = .next t := by
  unfold withRange
  split
  · exact h
  · exact ⟨_, rfl⟩

theorem step_answers (s : State) : ∃ t, step s = .next t := by
  unfold step stepCycle
  split
  · exact ⟨s, rfl⟩
  · exact withRange_answers (decodeAndExec_answers s) _ _ s

theorem applyOp_answers (op : HostOp) (s : State) : ∃ t, applyOp op s = .next t := by
  cases op with
  | step => exact step_answers s
  | init | reset | load image | tick | setKey k pressed => exact ⟨_, rfl⟩

/-- A schedule is carried on by one more operation. -/
theorem runOps_append {ops : List HostOp} {op : HostOp} {s t u : State}
    (h : runOps ops s = .next t) (hop : applyOp op t = .next u) :
    runOps (ops ++ [op]) s = .next u := by
  induction ops generalizing s with
  | nil =>
    obtain rfl := Host.Outcome.next.inj h
    simp [runOps, hop]
  | cons o rest ih =>
    obtain ⟨v, hv⟩ := applyOp_answers o s
    simp only [runOps, hv, List.cons_append] at h ⊢
    exact ih h

theorem runOps_keeps_inv {ops : List HostOp} {s t : State} (hs : s.Inv) (h : runOps ops s = .next t) :
    t.Inv := by
  induction ops generalizing s with
  | nil =>
    obtain rfl := Host.Outcome.next.inj h
    exact hs
  | cons op rest ih =>
    obtain ⟨u, hu⟩ := applyOp_answers op s
    rw [runOps, hu] at h
    exact ih (applyOp_keeps_inv hs hu) h

/-- Settles O20, by the invariant at reset and its step over every operation of the schedule. -/
theorem everyReachableStateMeetsInv : Obligations.EveryReachableStateMeetsInv := by
  unfold Obligations.EveryReachableStateMeetsInv
  rintro s ⟨ops, hrun⟩
  refine ⟨runOps_keeps_inv reset_inv hrun, fun op => ?_⟩
  obtain ⟨t, ht⟩ := applyOp_answers op s
  exact ⟨t, ht, ops ++ [op], runOps_append hrun ht⟩

/-! ## The flag -/

/-- The canvas after the last row of the sprite of `DRW` (43_display.md rule R131). -/
def drwCanvas (x y : RegIdx) (n : Nibble) (s : State) : Canvas :=
  drawRows (s.readV x).toNat (s.readV y).toNat (s.mem.readBytes s.base n.toNat) ⟨s.disp, false⟩

/-- A drawing that does not fault leaves its canvas on the display and the collision in `VF`. -/
theorem exec_drw_disp_flag {x y : RegIdx} {n : Nibble} {s t : State} (ht : t.fault = none)
    (h : exec (.drw x y n) s = .next t) :
    t.disp = (drwCanvas x y n s).disp ∧ t.readV 15 = flagByte (drwCanvas x y n s).hit := by
  rcases withRange_cases h with ⟨-, hx⟩ | ⟨-, -, hx⟩
  · obtain rfl := Host.Outcome.next.inj hx
    exact ⟨rfl, (State.readV_writeV _ flagReg 15 _).trans (if_pos rfl)⟩
  · obtain rfl := Host.Outcome.next.inj hx
    rw [State.raise_fault] at ht
    exact absurd ht (Option.some_ne_none _)

/-- A drawing collides exactly when a lit cell goes off. -/
theorem drawRows_hit_iff_cell_goes_off (x0 cy : Nat) (rows : List Byte) (d : Display)
    (h : rows.length ≤ 32) :
    (drawRows x0 cy rows ⟨d, false⟩).hit = true ↔
      ∃ y x, d.cell y x = true ∧ (drawRows x0 cy rows ⟨d, false⟩).disp.cell y x = false := by
  have hcell := drawRows_cell x0 cy rows ⟨d, false⟩ h
  rw [drawRows_hit x0 cy rows _ h]
  constructor
  · rintro (hf | ⟨⟨y, x⟩, hmem, hlit⟩)
    · exact absurd hf (by simp)
    · exact ⟨y, x, hlit, by simpa [hcell, hmem] using hlit⟩
  · rintro ⟨y, x, hlit, hoff⟩
    refine .inr ⟨(y, x), ?_, hlit⟩
    by_contra hmem
    simp [hcell, hmem, hlit] at hoff

theorem flagByte_eq_one {c : Bool} : flagByte c = 1 ↔ c = true := by
  cases c <;> simp [flagByte]

/-- An instruction that writes a result and then the flag leaves 0 or 1 in `VF` (10_state.md rule R15). -/
theorem readV_flag_of_writeFlagged {s t : State} {x : RegIdx} {b : Byte} {c : Bool}
    (h : (.next (s.writeFlagged x b c) : Out State) = .next t) : t.readV 15 = 0 ∨ t.readV 15 = 1 := by
  obtain rfl := Host.Outcome.next.inj h
  rw [State.readV_writeFlagged, flagReg, if_pos rfl]
  exact flagByte_eq_zero_or_one c

/-- Settles O41: what `VF` holds is a flag, written last, and the flag of a drawing is its collision. -/
theorem flagIsZeroOrOne : Obligations.FlagIsZeroOrOne := by
  unfold Obligations.FlagIsZeroOrOne
  intro x y n s t hs ht
  constructor
  · rintro (h | h | h | h | h | h)
    · exact readV_flag_of_writeFlagged h
    · exact readV_flag_of_writeFlagged h
    · exact readV_flag_of_writeFlagged h
    · exact readV_flag_of_writeFlagged h
    · exact readV_flag_of_writeFlagged h
    · obtain ⟨-, hflag⟩ := exec_drw_disp_flag ht h
      rw [hflag]
      exact flagByte_eq_zero_or_one _
  · intro h
    obtain ⟨hdisp, hflag⟩ := exec_drw_disp_flag ht h
    rw [hflag, hdisp, flagByte_eq_one]
    apply drawRows_hit_iff_cell_goes_off
    have hn := n.isLt
    rw [Memory.readBytes_length]
    omega

/-! ## Reset -/

/-- Settles O17, by reading the 80 bytes. -/
theorem glyphTableBytes : Obligations.GlyphTableBytes := by
  unfold Obligations.GlyphTableBytes
  decide

/-- Settles O16, field by field. -/
theorem resetStateIsAsTabled : Obligations.ResetStateIsAsTabled := by
  unfold Obligations.ResetStateIsAsTabled
  refine ⟨rfl, ?_, rfl, rfl, ?_, rfl, rfl, Display.cell_clear, ?_, ?_, ?_, rfl, rfl⟩
  · intro r
    simp [State.readV, State.reset]
  · intro k h
    simp [State.reset]
  · intro k h
    rw [State.key?_of_lt h]
    simp [State.reset]
  · intro a _
    exact Config.resetByte_eq a
  · intro a ha _
    have hlen : Config.glyphTable.length ≤ a := ha
    exact (Config.resetByte_eq a).trans (List.getD_eq_default _ _ hlen)

/-! ## Registers an instruction does not read

Two states that agree but for one register go through each operation of the state together; an instruction
is a chain of these operations, with values that are alike on both sides where it does not read the
register. -/

/-- `u` is `s` but for register `r`. -/
structure AgreeExcept (r : RegIdx) (s u : State) : Prop where
  regs : ∀ q, q ≠ r → u.readV q = s.readV q
  pc : u.pc = s.pc
  mem : u.mem = s.mem
  i : u.i = s.i
  stack : u.stack = s.stack
  sp : u.sp = s.sp
  key : u.key = s.key
  dt : u.dt = s.dt
  st : u.st = s.st
  disp : u.disp = s.disp
  fault : u.fault = s.fault
  draws : u.draws = s.draws

namespace AgreeExcept

variable {r : RegIdx} {s u : State}

theorem writeV_self (s : State) (r : RegIdx) (b : Byte) : AgreeExcept r s (s.writeV r b) :=
  ⟨fun q hq => by rw [State.readV_writeV, if_neg hq],
    rfl, rfl, rfl, rfl, rfl, rfl, rfl, rfl, rfl, rfl, rfl⟩

theorem setPC (h : AgreeExcept r s u) {w w' : Word} (hw : w' = w) :
    AgreeExcept r (s.setPC w) (u.setPC w') := { h with pc := hw }

theorem advance (h : AgreeExcept r s u) : AgreeExcept r s.advance u.advance :=
  h.setPC (by rw [h.pc])

theorem skipIf (h : AgreeExcept r s u) {c c' : Bool} (hc : c' = c) :
    AgreeExcept r (s.skipIf c) (u.skipIf c') := by
  subst hc
  cases c' with
  | true => exact h.setPC (by rw [h.pc])
  | false => exact h

theorem writeV (h : AgreeExcept r s u) (x : RegIdx) {b b' : Byte} (hb : b' = b) :
    AgreeExcept r (s.writeV x b) (u.writeV x b') where
  __ := h
  regs q hq := by rw [State.readV_writeV, State.readV_writeV, hb, h.regs q hq]

theorem writeFlagged (h : AgreeExcept r s u) (x : RegIdx) {b b' : Byte} {c c' : Bool} (hb : b' = b)
    (hc : c' = c) : AgreeExcept r (s.writeFlagged x b c) (u.writeFlagged x b' c') :=
  (h.writeV x hb).writeV flagReg (congrArg flagByte hc)

theorem setI (h : AgreeExcept r s u) {w w' : Word} (hw : w' = w) :
    AgreeExcept r (s.setI w) (u.setI w') := { h with i := hw }

theorem setDT (h : AgreeExcept r s u) {b b' : Byte} (hb : b' = b) :
    AgreeExcept r (s.setDT b) (u.setDT b') := { h with dt := hb }

theorem setST (h : AgreeExcept r s u) {b b' : Byte} (hb : b' = b) :
    AgreeExcept r (s.setST b) (u.setST b') := { h with st := hb }

theorem setDisp (h : AgreeExcept r s u) {d d' : Display} (hd : d' = d) :
    AgreeExcept r (s.setDisp d) (u.setDisp d') := { h with disp := hd }

theorem tookDraw (h : AgreeExcept r s u) : AgreeExcept r s.tookDraw u.tookDraw :=
  { h with draws := congrArg (· + 1) h.draws }

theorem base_eq (h : AgreeExcept r s u) : u.base = s.base := by rw [State.base, State.base, h.i]

theorem store (h : AgreeExcept r s u) {a : Nat} {bs bs' : List Byte} (hbs : bs' = bs) :
    AgreeExcept r (s.store a bs) (u.store a bs') :=
  { h with mem := by rw [State.store_mem, State.store_mem, h.mem, hbs] }

theorem loadRegs (h : AgreeExcept r s u) (k : Nat) (bs : List Byte) :
    AgreeExcept r (s.loadRegs k bs) (u.loadRegs k bs) := by
  induction bs generalizing s u k with
  | nil => exact h
  | cons b rest ih => exact ih (h.writeV _ rfl) (k + 1)

theorem raise (h : AgreeExcept r s u) {c c' : FaultCause} (hc : c' = c) :
    AgreeExcept r (s.raise c (some s.pc)) (u.raise c' (some u.pc)) := by
  subst hc
  constructor
  case regs => simpa using h.regs
  all_goals
    simp [h.pc, h.mem, h.i, h.stack, h.sp, h.key, h.dt, h.st, h.disp, h.fault, h.draws]

end AgreeExcept

/-- Two outcomes that are next states alike but for register `r`. -/
def OutAgree (r : RegIdx) (o o' : Out State) : Prop :=
  ∃ t u, o = .next t ∧ o' = .next u ∧ AgreeExcept r t u

theorem AgreeExcept.next {r : RegIdx} {t u : State} (h : AgreeExcept r t u) :
    OutAgree r (.next t) (.next u) := ⟨t, u, rfl, rfl, h⟩

theorem AgreeExcept.faultStep {r : RegIdx} {s u : State} (h : AgreeExcept r s u) {c c' : FaultCause}
    (hc : c' = c) : OutAgree r (faultStep c s) (faultStep c' u) := (h.raise hc).next

theorem AgreeExcept.withRange {r : RegIdx} {s u : State} (h : AgreeExcept r s u) (start len : Nat)
    {body body' : Out State} (hb : OutAgree r body body') :
    OutAgree r (withRange start len s body) (withRange start len u body') := by
  unfold Machine.withRange
  split
  · exact hb
  · exact h.faultStep rfl

/-- The registers of a bulk store are alike where it does not read `r`. -/
theorem AgreeExcept.firstRegs_eq {r : RegIdx} {s u : State} (h : AgreeExcept r s u) {n : Nat}
    (hn : n ≤ r.toNat) : u.firstRegs n = s.firstRegs n := by
  have hr := r.isLt
  apply List.ext_getElem (by simp)
  intro k hk _
  have hkn : k < n := by simp at hk; omega
  have hq : (BitVec.ofNat 4 k).toNat = k := Nat.mod_eq_of_lt (by omega)
  have hne : BitVec.ofNat 4 k ≠ r := by
    intro he
    rw [← he, hq] at hn
    omega
  have hreg := h.regs _ hne
  rw [← State.firstRegs_getD u n _ (by omega), ← State.firstRegs_getD s n _ (by omega), hq] at hreg
  rwa [List.getD_eq_getElem, List.getD_eq_getElem] at hreg

theorem AgreeExcept.ret {r : RegIdx} {s u : State} (h : AgreeExcept r s u) :
    OutAgree r (exec .ret s) (exec .ret u) := by
  rcases Nat.eq_zero_or_pos s.sp.val with hsp | hsp
  · rw [exec_ret_of_empty hsp, exec_ret_of_empty (by rw [h.sp, hsp])]
    exact h.faultStep rfl
  · rw [exec_ret hsp, exec_ret (by rwa [h.sp])]
    exact AgreeExcept.next { h with pc := by simp only [h.stack, h.sp], sp := by simp only [h.sp] }

theorem AgreeExcept.call {r : RegIdx} {s u : State} (h : AgreeExcept r s u) (nnn : Addr12) :
    OutAgree r (exec (.call nnn) s) (exec (.call nnn) u) := by
  rcases Nat.lt_or_eq_of_le s.sp_le with hsp | hsp
  · rw [exec_call hsp, exec_call (by rwa [h.sp])]
    exact AgreeExcept.next { h with
      pc := rfl, stack := by simp only [h.pc, h.stack, h.sp], sp := by simp only [h.sp] }
  · rw [exec_call_of_full hsp, exec_call_of_full (by rw [h.sp, hsp])]
    exact h.faultStep rfl

/-- An instruction takes states that agree but for a register it does not read to such states again. -/
theorem exec_agreeExcept {i : Instr} {r : RegIdx} {s u : State} (h : AgreeExcept r s u)
    (hr : readsReg i r = false) : OutAgree r (exec i s) (exec i u) := by
  have hread : ∀ x, readsReg i x = true → u.readV x = s.readV x := by
    intro x hx
    apply h.regs
    rintro rfl
    exact Bool.false_ne_true (hr.symm.trans hx)
  have ha := h.advance
  cases i with
  | nop => exact ha.next
  | cls => exact (ha.setDisp rfl).next
  | jp nnn => exact (ha.setPC rfl).next
  | ldImm x nn => exact (ha.writeV x rfl).next
  | ldI nnn => exact (ha.setI rfl).next
  | ldVxDT x => exact (ha.writeV x h.dt).next
  | rnd x nn => exact (ha.tookDraw.writeV x (by rw [State.drawn, State.drawn, h.draws])).next
  | jpV0 nnn => exact (ha.setPC (by rw [hread 0 rfl])).next
  | seImm x nn | sneImm x nn =>
    have hx := hread x (by simp [readsReg])
    exact (ha.skipIf (by rw [hx])).next
  | addImm x nn =>
    have hx := hread x (by simp [readsReg])
    exact (ha.writeV x (by rw [hx])).next
  | addI x =>
    have hx := hread x (by simp [readsReg])
    exact (ha.setI (by rw [hx, h.i])).next
  | ldF x =>
    have hx := hread x (by simp [readsReg])
    exact (ha.setI (by rw [hx])).next
  | ldDTVx x => exact (ha.setDT (hread x (by simp [readsReg]))).next
  | ldSTVx x => exact (ha.setST (hread x (by simp [readsReg]))).next
  | ldReg x y => exact (ha.writeV x (hread y (by simp [readsReg]))).next
  | seReg x y | sneReg x y =>
    have hx := hread x (by simp [readsReg])
    have hy := hread y (by simp [readsReg])
    exact (ha.skipIf (by rw [hx, hy])).next
  | or x y | and x y | xor x y =>
    have hx := hread x (by simp [readsReg])
    have hy := hread y (by simp [readsReg])
    exact (ha.writeV x (by rw [hx, hy])).next
  | addReg x y | sub x y | subn x y =>
    have hx := hread x (by simp [readsReg])
    have hy := hread y (by simp [readsReg])
    exact (ha.writeFlagged x (by rw [hx, hy]) (by rw [hx, hy])).next
  | shr x y | shl x y =>
    have hx := hread x (by simp [readsReg])
    exact (ha.writeFlagged x (by rw [hx]) (by rw [hx])).next
  | skp x | sknp x =>
    have hx := hread x (by simp [readsReg])
    simp only [exec, execSkp, execSknp, State.key?, hx, h.key]
    split
    · exact (ha.skipIf rfl).next
    · exact h.faultStep rfl
  | ldVxK x =>
    simp only [exec, execLdVxK, State.firstPressed, h.key]
    split
    · exact (ha.writeV x rfl).next
    · exact (ha.setPC (by rw [ha.pc])).next
  | ret => exact h.ret
  | call nnn => exact h.call nnn
  | drw x y n =>
    have hx := hread x (by simp [readsReg])
    have hy := hread y (by simp [readsReg])
    simp only [exec, execDrw, hx, hy, h.base_eq, h.mem, h.disp]
    exact h.withRange _ _ ((ha.setDisp rfl).writeV flagReg rfl).next
  | ldB x =>
    have hx := hread x (by simp [readsReg])
    simp only [exec, execLdB, hx, h.base_eq]
    exact h.withRange _ _ (ha.store rfl).next
  | ldMemVx x =>
    have hn : x.toNat < r.toNat := by simpa [readsReg] using hr
    simp only [exec, execLdMemVx, h.firstRegs_eq hn, bulkCount, h.base_eq]
    exact h.withRange _ _ (ha.store rfl).next
  | ldVxMem x =>
    simp only [exec, execLdVxMem, h.mem, h.base_eq]
    exact h.withRange _ _ (ha.loadRegs 0 _).next

/-- Settles O11: a state and the same state with an unread register written agree but for that register, and
so do what the instruction makes of them. -/
theorem unreadRegistersDoNotMatter : Obligations.UnreadRegistersDoNotMatter := by
  unfold Obligations.UnreadRegistersDoNotMatter
  intro i s r b hr
  obtain ⟨t, u, ht, hu, h⟩ := exec_agreeExcept (.writeV_self s r b) hr
  exact ⟨t, u, ht, hu, h.regs, h.pc, h.mem, h.i, h.stack, h.sp, h.key, h.dt, h.st, h.disp, h.fault,
    h.draws⟩

end Sys2Proof.Machine

namespace Sys2Proof.Machine

/-! ## A store seen by the next fetch (20_memory.md rule R49) -/

/-- With no fault, two bytes of memory at `PC` and a word there that decodes to `i`, the step is `exec i`. -/
theorem step_of_decode {s : State} {i : Instr} (hf : s.fault = none) (hfit : s.pc.toNat + 2 ≤ 4096)
    (hd : decode s.opcode = .ok i) : step s = exec i s := by
  have hbody : decodeAndExec s = exec i s := by rw [decodeAndExec, hd]
  rw [step, stepCycle, hf]
  exact (withRange_of_fits (.inr hfit) s _).trans hbody

/-- A bulk store that fits in memory completes (42_index_memory.md rule R124). -/
theorem exec_ldMemVx_of_fits {x : RegIdx} {s : State} (h : s.i.toNat + x.toNat < 4096) :
    exec (.ldMemVx x) s = .next (s.advance.store s.base (s.firstRegs (bulkCount x))) :=
  withRange_of_fits (.inr (by rw [State.base, bulkCount]; omega)) _ _

/-- After a bulk store up to `V[X]` the byte at `I + r` is `V[r]`, for every register stored. -/
theorem Memory.read_bulkStore (m : Memory) (s : State) {x r : RegIdx} (h : r.toNat ≤ x.toNat) :
    Memory.read (m.writeBytes s.base (s.firstRegs (bulkCount x))) (s.base + r.toNat) = s.readV r := by
  have hx : x.toNat < 16 := x.isLt
  have hin : s.base ≤ s.base + r.toNat ∧
      s.base + r.toNat < s.base + (s.firstRegs (bulkCount x)).length := by
    rw [State.firstRegs_length, bulkCount]
    omega
  rw [Memory.read_writeBytes, if_pos hin, Nat.add_sub_cancel_left]
  exact State.firstRegs_getD s _ r (Nat.lt_succ_of_le h)

/-- The opcode at `PC` after a bulk store of at least two registers on the instruction that follows it:
`V[0]` is its high byte and `V[1]` its low byte (20_memory.md rule R40). -/
theorem opcode_bulkStore {x : RegIdx} {s : State} (hx : 1 ≤ x.toNat) (hpc : s.pc + 2 = s.i) :
    (s.advance.store s.base (s.firstRegs (bulkCount x))).opcode = s.readV 0 ++ s.readV 1 := by
  have h0 := Memory.read_bulkStore s.mem s (x := x) (r := 0) (Nat.zero_le _)
  have h1 := Memory.read_bulkStore s.mem s (x := x) (r := 1) hx
  rw [State.opcode, State.store_pc, State.advance_pc, hpc, State.store_mem, State.advance_mem]
  exact congrArg₂ opcodeOf h0 h1

/-- Settles O47: the store leaves `PC` at `I`, where the next step fetches the two bytes just stored. -/
theorem storeIsSeenByTheNextFetch : Obligations.StoreIsSeenByTheNextFetch := by
  unfold Obligations.StoreIsSeenByTheNextFetch
  intro x s i hf hx hfit hpc hd
  refine ⟨_, exec_ldMemVx_of_fits hfit, step_of_decode hf ?_ ?_⟩
  · rw [State.store_pc, State.advance_pc, hpc]
    omega
  · rw [opcode_bulkStore hx hpc, hd]

end Sys2Proof.Machine

namespace Sys2Proof

/-! ## The encoding (30_encoding.md)

Encoding and decoding are inverse to each other, and the decode procedure of rule R66 agrees with the table of
masks and matches of rule R64. Every argument goes through the fields of the formats (rules R61 to R63). -/

/-- Decoding the word of an instruction: the leading field selects the family, the function field (where the
format has one) the instruction, and each operand field gives its operand back. -/
theorem decode?_encode (i : Instr) : decode? (encode i) = some i := by
  cases i with
  | nop | cls | ret => rfl
  | jp nnn | call nnn | ldI nnn | jpV0 nnn => simp [encode, decode?]
  | seImm x nn | sneImm x nn | ldImm x nn | addImm x nn | rnd x nn => simp [encode, decode?]
  | drw x y n => simp [encode, decode?]
  | seReg x y | sneReg x y => simp [encode, decode?, decodeLowZero]
  | ldReg x y | or x y | and x y | xor x y | addReg x y | sub x y | shr x y | subn x y | shl x y =>
    simp [encode, decode?, decodeAlu]
  | skp x | sknp x => simp [encode, decode?, decodeKey]
  | ldVxDT x | ldVxK x | ldDTVx x | ldSTVx x | addI x | ldF x | ldB x | ldMemVx x | ldVxMem x =>
    simp [encode, decode?, decodeMisc]

/-- Settles O2: the decoder reads from each format the fields the encoder joined in it. -/
theorem decodeOfEncodeIsIdentity : Obligations.DecodeOfEncodeIsIdentity :=
  fun i => decode_eq_ok.mpr (decode?_encode i)

/-! ### The word of a decoded instruction -/

theorem formatA_of_field {w : Word} {k : Nibble} (hk : fieldFamily w = k) :
    formatA k (fieldNNN w) = w := by
  rw [← hk, formatA_fields]

theorem formatI_of_field {w : Word} {k : Nibble} (hk : fieldFamily w = k) :
    formatI k (fieldX w) (fieldNN w) = w := by
  rw [← hk, formatI_fields]

theorem formatI_of_fields {w : Word} {k : Nibble} {b : Byte} (hk : fieldFamily w = k)
    (hb : fieldNN w = b) : formatI k (fieldX w) b = w := by
  rw [← hb, formatI_of_field hk]

theorem formatR_of_fields {w : Word} {k n : Nibble} (hk : fieldFamily w = k) (hn : fieldN w = n) :
    formatR k (fieldX w) (fieldY w) n = w := by
  rw [← hk, ← hn, formatR_fields]

/-- Family 0: each of the three words is the word of its instruction. -/
theorem encode_of_decodeFixed {w : Word} {i : Instr} (h : decodeFixed w = some i) : encode i = w := by
  unfold decodeFixed at h
  split_ifs at h with h1 h2 h3 <;> cases h
  · exact h1.symm
  · exact h2.symm
  · exact h3.symm

/-- Families 5 and 9: the low field is 0 in the word as in the format. -/
theorem encode_of_decodeLowZero {w : Word} {i j : Instr}
    (hj : fieldN w = 0 → encode j = w) (h : decodeLowZero j w = some i) : encode i = w := by
  unfold decodeLowZero at h
  split_ifs at h with hn
  cases h
  exact hj hn

/-- Family 8: the function nibble that selects the instruction is the one its format writes. -/
theorem encode_of_decodeAlu {w : Word} {i : Instr} (hk : fieldFamily w = 8)
    (h : decodeAlu w = some i) : encode i = w := by
  unfold decodeAlu at h
  split at h <;> cases h <;> exact formatR_of_fields hk ‹_›

/-- Family E: the function byte that selects the instruction is the one its format writes. -/
theorem encode_of_decodeKey {w : Word} {i : Instr} (hk : fieldFamily w = 0xE)
    (h : decodeKey w = some i) : encode i = w := by
  unfold decodeKey at h
  split at h <;> cases h <;> exact formatI_of_fields hk ‹_›

/-- Family F: the function byte that selects the instruction is the one its format writes. -/
theorem encode_of_decodeMisc {w : Word} {i : Instr} (hk : fieldFamily w = 0xF)
    (h : decodeMisc w = some i) : encode i = w := by
  unfold decodeMisc at h
  split at h <;> cases h <;> exact formatI_of_fields hk ‹_›

/-- A word that decodes is the word of its instruction. Case `h_k` is the family with leading field `k - 1`;
`h_17` is the decoder's last arm, which gives no instruction. -/
theorem encode_of_decode? {w : Word} {i : Instr} (h : decode? w = some i) : encode i = w := by
  unfold decode? at h
  split at h
  case h_1 => exact encode_of_decodeFixed h
  case h_2 hk | h_3 hk | h_11 hk | h_12 hk => cases h; exact formatA_of_field hk
  case h_4 hk | h_5 hk | h_7 hk | h_8 hk | h_13 hk => cases h; exact formatI_of_field hk
  case h_6 hk | h_10 hk => exact encode_of_decodeLowZero (formatR_of_fields hk) h
  case h_9 hk => exact encode_of_decodeAlu hk h
  case h_14 hk => cases h; exact formatR_of_fields hk rfl
  case h_15 hk => exact encode_of_decodeKey hk h
  case h_16 hk => exact encode_of_decodeMisc hk h
  case h_17 => cases h

/-- Settles O3: each family's instructions keep every field of the word. -/
theorem encodeOfDecodeIsIdentity : Obligations.EncodeOfDecodeIsIdentity :=
  fun _ _ h => encode_of_decode? (decode_eq_ok.mp h)

/-! ### The decode procedure and the decode map -/

open Laws in
/-- The word of every instruction selects the instruction's row. -/
theorem row_selects_encode (i : Instr) : i.row.selects (encode i) = true := by
  cases i with
  | nop => exact EncodesItsRow.nop
  | cls => exact EncodesItsRow.cls
  | ret => exact EncodesItsRow.ret
  | jp nnn => exact EncodesItsRow.jp nnn
  | call nnn => exact EncodesItsRow.call nnn
  | seImm x nn => exact EncodesItsRow.seImm x nn
  | sneImm x nn => exact EncodesItsRow.sneImm x nn
  | seReg x y => exact EncodesItsRow.seReg x y
  | ldImm x nn => exact EncodesItsRow.ldImm x nn
  | addImm x nn => exact EncodesItsRow.addImm x nn
  | ldReg x y => exact EncodesItsRow.ldReg x y
  | or x y => exact EncodesItsRow.or x y
  | and x y => exact EncodesItsRow.and x y
  | xor x y => exact EncodesItsRow.xor x y
  | addReg x y => exact EncodesItsRow.addReg x y
  | sub x y => exact EncodesItsRow.sub x y
  | shr x y => exact EncodesItsRow.shr x y
  | subn x y => exact EncodesItsRow.subn x y
  | shl x y => exact EncodesItsRow.shl x y
  | sneReg x y => exact EncodesItsRow.sneReg x y
  | ldI nnn => exact EncodesItsRow.ldI nnn
  | jpV0 nnn => exact EncodesItsRow.jpV0 nnn
  | rnd x nn => exact EncodesItsRow.rnd x nn
  | drw x y n => exact EncodesItsRow.drw x y n
  | skp x => exact EncodesItsRow.skp x
  | sknp x => exact EncodesItsRow.sknp x
  | ldVxDT x => exact EncodesItsRow.ldVxDT x
  | ldVxK x => exact EncodesItsRow.ldVxK x
  | ldDTVx x => exact EncodesItsRow.ldDTVx x
  | ldSTVx x => exact EncodesItsRow.ldSTVx x
  | addI x => exact EncodesItsRow.addI x
  | ldF x => exact EncodesItsRow.ldF x
  | ldB x => exact EncodesItsRow.ldB x
  | ldMemVx x => exact EncodesItsRow.ldMemVx x
  | ldVxMem x => exact EncodesItsRow.ldVxMem x

theorem row_selects_of_decode {w : Word} {i : Instr} (h : decode w = .ok i) :
    i.row.selects w = true := by
  rw [← encodeOfDecodeIsIdentity w i h]
  exact row_selects_encode i

theorem row_mem_decodeMap (i : Instr) : i.row ∈ decodeMap := by
  cases i <;> simp [Instr.row, decodeMap, decodeMapLow, decodeMapHigh]

/-- The map's rows are the rows of the instructions: the word of each row, all its operands 0, decodes to an
instruction of that row. -/
theorem exists_row_eq {r : MapRow} (hr : r ∈ decodeMap) : ∃ i : Instr, i.row = r := by
  have hall : ∀ r ∈ decodeMap, (decode? r.word).map Instr.row = some r := by decide
  obtain ⟨i, -, hi⟩ := Option.map_eq_some_iff.mp (hall r hr)
  exact ⟨i, hi⟩

/-- What two rows that select one word fix in it agrees on the bits that both masks keep. -/
theorem MapRow.word_and_mask_comm {r q : MapRow} {w : Word} (hr : r.selects w = true)
    (hq : q.selects w = true) : r.word &&& q.mask = q.word &&& r.mask := by
  rw [selects, beq_iff_eq] at hr hq
  rw [← hr, ← hq, BitVec.and_assoc, BitVec.and_assoc, BitVec.and_comm r.mask]

/-- The rows are disjoint (rule R64): no word selects two of them. -/
theorem row_unique {r q : MapRow} {w : Word} (hr : r ∈ decodeMap) (hq : q ∈ decodeMap)
    (hrw : r.selects w = true) (hqw : q.selects w = true) : r = q := by
  have hdisjoint : ∀ r ∈ decodeMap, ∀ q ∈ decodeMap,
      r.word &&& q.mask = q.word &&& r.mask → r = q := by decide
  exact hdisjoint r hr q hq (MapRow.word_and_mask_comm hrw hqw)

theorem decodeMap_nodup : decodeMap.Nodup := by decide

/-- A row of the map that selects a word is the only one that does. -/
theorem filter_selects_eq_singleton {r : MapRow} {w : Word} (hr : r ∈ decodeMap)
    (hrw : r.selects w = true) : decodeMap.filter (fun q => q.selects w) = [r] := by
  have hcongr : decodeMap.filter (fun q => q.selects w) = decodeMap.filter (· == r) := by
    apply List.filter_congr
    intro q hq
    rw [Bool.eq_iff_iff, beq_iff_eq]
    constructor
    · exact fun hqw => row_unique hq hr hqw hrw
    · rintro rfl
      exact hrw
  rw [hcongr, List.filter_beq, List.count_eq_one_of_mem decodeMap_nodup hr]
  rfl

/-- A word that selects the row of an instruction decodes: the fields that the row's mask compares are those the
procedure branches on. -/
theorem decode?_isSome_of_selects {i : Instr} {w : Word} (h : i.row.selects w = true) :
    (decode? w).isSome = true := by
  cases i with
  | nop | cls | ret =>
    rw [selects_fixed.mp h]
    rfl
  | jp | call | seImm | sneImm | ldImm | addImm | ldI | jpV0 | rnd | drw =>
    rw [decode?, (selects_family rfl).mp h]
    rfl
  | seReg | sneReg =>
    obtain ⟨hk, hn⟩ := (selects_function rfl).mp h
    rw [decode?, hk]
    exact congrArg Option.isSome (if_pos hn)
  | ldReg | or | and | xor | addReg | sub | shr | subn | shl =>
    obtain ⟨hk, hn⟩ := (selects_function rfl).mp h
    rw [decode?, hk, decodeAlu, hn]
    rfl
  | skp | sknp =>
    obtain ⟨hk, hb⟩ := (selects_byte rfl).mp h
    rw [decode?, hk, decodeKey, hb]
    rfl
  | ldVxDT | ldVxK | ldDTVx | ldSTVx | addI | ldF | ldB | ldMemVx | ldVxMem =>
    obtain ⟨hk, hb⟩ := (selects_byte rfl).mp h
    rw [decode?, hk, decodeMisc, hb]
    rfl

/-- A word is well formed exactly when it decodes. -/
theorem wellFormedWord_iff {w : Word} : wellFormedWord w = true ↔ ∃ i, decode w = .ok i := by
  rw [wellFormedWord, List.any_eq_true]
  constructor
  · rintro ⟨r, hr, hrw⟩
    obtain ⟨i, rfl⟩ := exists_row_eq hr
    obtain ⟨j, hj⟩ := Option.isSome_iff_exists.mp (decode?_isSome_of_selects hrw)
    exact ⟨j, decode_eq_ok.mpr hj⟩
  · rintro ⟨i, hi⟩
    exact ⟨i.row, row_mem_decodeMap i, row_selects_of_decode hi⟩

/-- Settles O4: a word that decodes selects the row of its instruction, the rows are disjoint, and the words that
select a row are those that decode. -/
theorem decoderAgreesWithTheMap : Obligations.DecoderAgreesWithTheMap := by
  unfold Obligations.DecoderAgreesWithTheMap
  intro w
  refine ⟨fun i hi => ⟨row_mem_decodeMap i, ?_⟩, fun hw => ?_, wellFormedWord_iff.mp⟩
  · exact filter_selects_eq_singleton (row_mem_decodeMap i) (row_selects_of_decode hi)
  · rcases decode_cases w with ⟨i, -, hi⟩ | ⟨-, hrej⟩
    · exact absurd (hw.symm.trans (wellFormedWord_iff.mpr ⟨i, hi⟩)) Bool.false_ne_true
    · exact hrej

/-! ### Words written out from the spec -/

/-- Settles O1: the decoder run on each of the words. -/
theorem specWordsDecode : Obligations.SpecWordsDecode := by
  unfold Obligations.SpecWordsDecode
  decide

end Sys2Proof

namespace Sys2Proof.Machine

/-! ## Control transfer (40_control.md)

`NOP`, the jumps and the skips only set `PC`; `RET` and `CALL` set `PC` and the stack. A call and the return
from it are read off what is proved of `CALL` and of `RET`. -/

/-- Setting `PC` changes nothing else. -/
theorem keeps_setPC (s : State) (w : Word) : Keeps {} s (s.setPC w) := by
  simp [Keeps]

/-- Setting `PC`, the stack and its count changes nothing else. -/
theorem keeps_allButStack (s : State) (w : Word) (stack : Vector Word Config.stackDepth)
    (sp : Fin (Config.stackDepth + 1)) :
    Keeps { stack := True } s { s with pc := w, stack := stack, sp := sp } := by
  simp [Keeps, State.readV]

/-- What two operations in turn leave unchanged. -/
theorem Keeps.trans {w : Touched} {s t u : State} (hst : Keeps w s t) (htu : Keeps w t u) :
    Keeps w s u := by
  obtain ⟨hv, hm, hi, hstack, hdt, hsound, hd, hf, hn, hk⟩ := hst
  obtain ⟨hv', hm', hi', hstack', hdt', hsound', hd', hf', hn', hk'⟩ := htu
  exact ⟨fun r h => (hv' r h).trans (hv r h), fun a h => (hm' a h).trans (hm a h),
    fun h => (hi' h).trans (hi h),
    fun h => ⟨(hstack' h).1.trans (hstack h).1, (hstack' h).2.trans (hstack h).2⟩,
    fun h => (hdt' h).trans (hdt h), fun h => (hsound' h).trans (hsound h),
    fun h => (hd' h).trans (hd h), fun h => (hf' h).trans (hf h), fun h => (hn' h).trans (hn h),
    hk'.trans hk⟩

/-- Settles O28: `NOP` is the advance. -/
theorem nopOnlyAdvances : Obligations.NopOnlyAdvances :=
  fun s => ⟨s.advance, rfl, rfl, keeps_setPC s _⟩

/-- Settles O29: with a live entry `RET` reads the newest and lowers the count, the entries staying where they
are; with none it takes the fault. -/
theorem retPopsTheReturnAddress : Obligations.RetPopsTheReturnAddress := by
  unfold Obligations.RetPopsTheReturnAddress
  refine fun s => ⟨fun hsp => ⟨_, exec_ret hsp, ?_, rfl, fun _ _ => rfl, keeps_allButStack s _ _ _⟩,
    fun hsp hf => ?_⟩
  · exact Vector.getElem?_eq_getElem _
  · rw [exec_ret_of_empty hsp, faultStep_of_none hf, State.faulted]

/-- Settles O30: with an entry free `CALL` writes the one at `SP` and raises the count; with none it takes the
fault. -/
theorem callPushesTheReturnAddress : Obligations.CallPushesTheReturnAddress := by
  unfold Obligations.CallPushesTheReturnAddress
  refine fun nnn s => ⟨fun hsp => ⟨_, exec_call hsp, zext16_toNat_addr nnn, rfl, ?_, fun k hk => ?_,
    keeps_allButStack s _ _ _⟩, fun hsp hf => ?_⟩
  · exact Vector.getElem?_set_self hsp
  · exact Vector.getElem?_set_ne hsp hk.symm
  · rw [exec_call_of_full hsp, faultStep_of_none hf, State.faulted]

/-- Settles O31: the entry that `CALL` pushes at the old `SP` is the one that `RET` pops, and the entries below
it are kept by both. -/
theorem retAfterCallComesBack : Obligations.RetAfterCallComesBack := by
  unfold Obligations.RetAfterCallComesBack
  intro nnn s hsp
  obtain ⟨t, hcall, -, hspt, hpushed, hkept, hst⟩ := (callPushesTheReturnAddress nnn s).1 hsp
  obtain ⟨u, hret, hpopped, hspu, hlive, htu⟩ := (retPopsTheReturnAddress t).1 (by omega)
  have hback : u.sp.val = s.sp.val := by omega
  refine ⟨t, u, hcall, hret, ?_, Fin.ext hback, fun k hk => ?_, hst.trans htu⟩
  · rw [hspt, Nat.add_sub_cancel, hpushed] at hpopped
    exact (Option.some.inj hpopped).symm
  · exact (hlive k (by omega)).trans (hkept k (by omega))

/-- Settles O32: the jumps set `PC` to their target, for `JP` the operand and for `JP V0` the exact sum; a `JP`
to its own address sets it to what it is. -/
theorem jumpsSetPc : Obligations.JumpsSetPc := by
  unfold Obligations.JumpsSetPc
  refine fun nnn s => ⟨⟨_, rfl, zext16_toNat_addr nnn, keeps_setPC s _⟩, fun hself => ?_,
    ⟨_, rfl, jpV0_toNat nnn _, keeps_setPC s _⟩⟩
  have htarget : zext16 nnn = s.pc :=
    BitVec.eq_of_toNat_eq ((zext16_toNat_addr nnn).trans hself.symm)
  change Host.Outcome.next (s.setPC (zext16 nnn)) = .next s
  rw [htarget]
  rfl

/-- A skip on a condition leaves `PC` four bytes past the instruction where the condition holds and two where
not, and changes nothing else (40_control.md rule R89). -/
theorem exec_skipIf {i : Instr} {s : State} {c : Bool} {p : Prop} [Decidable p]
    (hx : exec i s = .next (s.advance.skipIf c)) (hc : c = true ↔ p) :
    ∃ t, exec i s = .next t ∧ t.pc = (if p then s.pc + 4 else s.pc + 2) ∧ Keeps {} s t := by
  refine ⟨_, hx, ?_, by simp [Keeps]⟩
  rw [State.skipIf_advance_pc]
  exact if_congr hc rfl rfl

/-- Settles O33: each of the four is a skip on its condition; that of the `SNE` forms is the negation. -/
theorem registerSkips : Obligations.RegisterSkips := by
  unfold Obligations.RegisterSkips
  refine fun x y nn s => ⟨exec_skipIf rfl beq_iff_eq, ?_, exec_skipIf rfl beq_iff_eq, ?_⟩
  · rw [← ite_not]
    exact exec_skipIf rfl bne_iff_ne
  · rw [← ite_not]
    exact exec_skipIf rfl bne_iff_ne

end Sys2Proof.Machine

namespace Sys2Proof.Machine

/-! ## Arithmetic and logic (41_alu.md)

Each of these instructions is the advance, then a write of `V[X]`, and for five of them a write of `VF` after it
(rule R112). What the two shapes leave is proved once; an instruction adds the value of its own result and
flag. -/

/-- The advance changes nothing but `PC`. -/
theorem keeps_advance (w : Touched) (s : State) : Keeps w s s.advance := by
  simp [Keeps]

/-- Writing a register that may change. -/
theorem Keeps.writeV {w : Touched} {s t : State} (h : Keeps w s t) {x : RegIdx} (hx : w.regs x)
    (b : Byte) : Keeps w s (t.writeV x b) := by
  obtain ⟨hregs, hrest⟩ := h
  refine ⟨fun r hr => ?_, hrest⟩
  have hne : r ≠ x := fun e => hr (e ▸ hx)
  rw [State.readV_writeV, if_neg hne, hregs r hr]

/-- Writing a result and then the flag, where both registers may change. -/
theorem Keeps.writeFlagged {w : Touched} {s t : State} (h : Keeps w s t) {x : RegIdx} (hx : w.regs x)
    (hflag : w.regs flagReg) (b : Byte) (c : Bool) : Keeps w s (t.writeFlagged x b c) :=
  (h.writeV hx b).writeV hflag (flagByte c)

/-- Taking a draw where the count of draws may change. -/
theorem Keeps.tookDraw {w : Touched} {s t : State} (h : Keeps w s t) (hw : w.draws) :
    Keeps w s t.tookDraw := by
  obtain ⟨hv, hm, hi, hstack, hdt, hst, hd, hf, -, hk⟩ := h
  exact ⟨hv, hm, hi, hstack, hdt, hst, hd, hf, fun hn => absurd hw hn, hk⟩

/-- A read of the register just written. -/
theorem State.readV_writeV_self (s : State) (x : RegIdx) (b : Byte) : (s.writeV x b).readV x = b := by
  rw [State.readV_writeV, if_pos rfl]

/-- An instruction that writes one register with no flag. -/
theorem exec_writeV {i : Instr} {s : State} {x : RegIdx} {b : Byte}
    (h : exec i s = .next (s.advance.writeV x b)) :
    ∃ t, exec i s = .next t ∧ t.readV x = b ∧ t.pc = s.pc + 2 ∧
      Keeps { regs := fun r => r = x } s t :=
  ⟨_, h, State.readV_writeV_self _ x b, rfl, (keeps_advance _ s).writeV rfl b⟩

/-- An instruction that writes a result and then a flag: the result stands in `V[x]` unless `x` is 15, and the
flag in `VF` always (10_state.md rule R15). -/
theorem exec_writeFlagged {i : Instr} {s : State} {x : RegIdx} {b : Byte} {c : Bool}
    (h : exec i s = .next (s.advance.writeFlagged x b c)) :
    ∃ t, exec i s = .next t ∧ (x ≠ 15 → t.readV x = b) ∧ t.readV 15 = flagByte c ∧
      t.pc = s.pc + 2 ∧ Keeps { regs := fun r => r = x ∨ r = 15 } s t := by
  refine ⟨_, h, fun hx => ?_, State.readV_writeV_self _ 15 _, rfl,
    (keeps_advance _ s).writeFlagged (Or.inl rfl) (Or.inr rfl) b c⟩
  rw [State.readV_writeFlagged, flagReg, if_neg hx, if_pos rfl]

/-- A flag that stands for a decided condition. -/
theorem flagByte_decide (p : Prop) [Decidable p] : flagByte (decide p) = if p then 1 else 0 := by
  simp [flagByte]

theorem flagByte_toNat (c : Bool) : (flagByte c).toNat = c.toNat := by
  cases c <;> rfl

/-- A difference of bytes wraps. -/
theorem byte_sub_toNat (a b : Byte) : (a - b).toNat = (a.toNat + 256 - b.toNat) % 256 := by
  have hb := b.isLt
  rw [BitVec.toNat_sub]
  omega

/-- The bit a right shift moves out is the remainder of the halving (41_alu.md rule R108). -/
theorem flagByte_outRight (a : Byte) : (flagByte (outRight a)).toNat = a.toNat % 2 := by
  rw [flagByte_toNat, outRight, ← BitVec.testBit_toNat, Nat.toNat_testBit, pow_zero, Nat.div_one]

/-- The bit a left shift moves out is the carry of the doubling (41_alu.md rule R110). -/
theorem flagByte_outLeft (a : Byte) : (flagByte (outLeft a)).toNat = a.toNat / 128 := by
  have ha := a.isLt
  rw [flagByte_toNat, outLeft, ← BitVec.testBit_toNat, Nat.toNat_testBit]
  omega

/-- Settles O34: each of the three writes its value to `V[X]` and no flag. -/
theorem registerLoads : Obligations.RegisterLoads :=
  fun _ _ _ _ => ⟨exec_writeV rfl, exec_writeV rfl, exec_writeV rfl⟩

/-- Settles O35: the byte written is the sum, which wraps. -/
theorem addImmediateWraps : Obligations.AddImmediateWraps := by
  unfold Obligations.AddImmediateWraps
  intro x nn s
  obtain ⟨t, hx, hres, hrest⟩ := exec_writeV (i := .addImm x nn) (s := s) rfl
  exact ⟨t, hx, by rw [hres, BitVec.toNat_add], hrest⟩

/-- Settles O36: each of the three writes its bitwise result to `V[X]` and no flag. -/
theorem logicOperations : Obligations.LogicOperations :=
  fun _ _ _ => ⟨exec_writeV rfl, exec_writeV rfl, exec_writeV rfl⟩

/-- Settles O37: the result is the sum, which wraps, and the flag says whether the exact sum is above 255. -/
theorem addRegisterSetsCarry : Obligations.AddRegisterSetsCarry := by
  unfold Obligations.AddRegisterSetsCarry
  intro x y s
  obtain ⟨t, hx, hres, hflag, hrest⟩ := exec_writeFlagged (i := .addReg x y) (s := s) rfl
  exact ⟨t, hx, fun hne => by rw [hres hne, BitVec.toNat_add], hflag.trans (flagByte_decide _), hrest⟩

/-- A subtraction from `m` of `d`, which wraps, with the flag for no borrow written last (41_alu.md rules R107
and R109). -/
theorem exec_subtract {i : Instr} {s : State} {x : RegIdx} {m d : Byte}
    (h : exec i s = .next (s.advance.writeFlagged x (m - d) (noBorrow m d))) :
    ∃ t, exec i s = .next t ∧ (x ≠ 15 → (t.readV x).toNat = (m.toNat + 256 - d.toNat) % 256) ∧
      t.readV 15 = (if d.toNat ≤ m.toNat then 1 else 0) ∧
      t.pc = s.pc + 2 ∧ Keeps { regs := fun r => r = x ∨ r = 15 } s t := by
  obtain ⟨t, hx, hres, hflag, hrest⟩ := exec_writeFlagged h
  exact ⟨t, hx, fun hne => by rw [hres hne, byte_sub_toNat], hflag.trans (flagByte_decide _), hrest⟩

/-- Settles O38: both are the one subtraction, `SUBN` with its operands swapped. -/
theorem subtractsSetNoBorrow : Obligations.SubtractsSetNoBorrow :=
  fun _ _ _ => ⟨exec_subtract rfl, exec_subtract rfl⟩

/-- Settles O39: a shift by one halves or doubles the byte, the flag is the bit that leaves it, and neither
meaning mentions `Y`. -/
theorem shiftsMoveOneBitToVf : Obligations.ShiftsMoveOneBitToVf := by
  unfold Obligations.ShiftsMoveOneBitToVf
  refine fun x y s => ⟨?_, ?_, fun z => ⟨rfl, rfl⟩⟩
  · obtain ⟨t, hx, hres, hflag, hrest⟩ := exec_writeFlagged (i := .shr x y) (s := s) rfl
    refine ⟨t, hx, fun hne => ?_, by rw [hflag, flagByte_outRight], hrest⟩
    rw [hres hne, BitVec.toNat_ushiftRight, Nat.shiftRight_eq_div_pow, pow_one]
  · obtain ⟨t, hx, hres, hflag, hrest⟩ := exec_writeFlagged (i := .shl x y) (s := s) rfl
    refine ⟨t, hx, fun hne => ?_, by rw [hflag, flagByte_outLeft], hrest⟩
    rw [hres hne, BitVec.toNat_shiftLeft, Nat.shiftLeft_eq, pow_one]

/-- A masked byte has no bit outside the mask. -/
theorem and_and_not_self (b m : Byte) : (b &&& m) &&& ~~~m = 0 := by
  rw [BitVec.and_assoc, BitVec.and_not_self]
  exact BitVec.and_zero

/-- Settles O40: the byte written is the free byte of the draw on entry, masked, and the draw is taken. -/
theorem rndMasksAFreshDraw : Obligations.RndMasksAFreshDraw := by
  unfold Obligations.RndMasksAFreshDraw
  intro x nn s
  have hres : (s.advance.tookDraw.writeV x (s.drawn &&& nn)).readV x = s.drawn &&& nn :=
    State.readV_writeV_self _ x _
  refine ⟨_, rfl, hres, rfl, ?_, rfl, ((keeps_advance _ s).tookDraw trivial).writeV rfl _⟩
  rw [hres, and_and_not_self]

end Sys2Proof.Machine

namespace Sys2Proof.Machine

/-! ## Index register and memory (42_index_memory.md)

`LD I`, `ADD I` and `LD F` are the advance and a write of `I`. The other three access a range of bytes from `I`
up that is checked whole before anything changes (20_memory.md rule R53): out of range they take one and the
same fault, in range `LD B` and `LD [I],VX` store a list of bytes there and `LD VX,[I]` loads registers from it.
What a write of `I`, a store, a bulk load and the fault leave is proved once; an instruction adds its own
values. -/

/-- Writing `I` where it may change. -/
theorem Keeps.setI {w : Touched} {s t : State} (h : Keeps w s t) (hw : w.index) (n : Word) :
    Keeps w s (t.setI n) := by
  obtain ⟨hv, hm, -, hrest⟩ := h
  exact ⟨hv, hm, fun hn => absurd hw hn, hrest⟩

/-- Storing bytes at addresses that may all change. -/
theorem Keeps.store {w : Touched} {s t : State} (h : Keeps w s t) {a : Nat} {bs : List Byte}
    (hbytes : ∀ c, a ≤ c ∧ c < a + bs.length → w.bytes c) : Keeps w s (t.store a bs) := by
  obtain ⟨hv, hm, hrest⟩ := h
  refine ⟨hv, fun c hc => ?_, hrest⟩
  rw [State.store_mem, Memory.read_writeBytes, if_neg (mt (hbytes c) hc), hm c hc]

/-- Loading registers that may all change. -/
theorem Keeps.loadRegs {w : Touched} {s t : State} (h : Keeps w s t) {k : Nat} {bs : List Byte}
    (hfit : k + bs.length ≤ 16)
    (hregs : ∀ r : RegIdx, k ≤ r.toNat ∧ r.toNat < k + bs.length → w.regs r) :
    Keeps w s (t.loadRegs k bs) := by
  obtain ⟨hv, hrest⟩ := h
  refine ⟨fun r hr => ?_, by simpa using hrest⟩
  rw [State.readV_loadRegs _ _ _ _ hfit, if_neg (mt (hregs r) hr), hv r hr]

/-- An instruction that writes `I` alone. -/
theorem exec_setI {i : Instr} {s : State} {n : Word} (h : exec i s = .next (s.advance.setI n)) :
    ∃ t, exec i s = .next t ∧ t.i = n ∧ t.pc = s.pc + 2 ∧ Keeps { index := True } s t :=
  ⟨_, h, rfl, rfl, (keeps_advance _ s).setI trivial n⟩

/-- An access of `len` bytes from `I` up that leaves memory takes the fault and does nothing else
(20_memory.md rule R53). -/
theorem exec_of_range_exceeds {i : Instr} {s : State} {len : Nat} {body : Out State}
    (hx : exec i s = withRange s.base len s body) (h0 : len ≠ 0) (h : 4096 < s.base + len)
    (hf : s.fault = none) : exec i s = .next (s.faulted (.memoryBounds (max s.i.toNat 4096))) := by
  rw [hx, withRange_of_exceeds h0 h, faultStep_of_none hf, State.faulted, State.base]

/-- After a store of the digits of `b` from `a` up, hundreds, tens and units are the values of the bytes there
(42_index_memory.md rule R123). -/
theorem Memory.read_bcdStore (m : Memory) (a : Nat) (b : Byte) :
    (Memory.read (m.writeBytes a (bcdDigits b)) a).toNat = b.toNat / 100 ∧
    (Memory.read (m.writeBytes a (bcdDigits b)) (a + 1)).toNat = b.toNat / 10 % 10 ∧
    (Memory.read (m.writeBytes a (bcdDigits b)) (a + 2)).toNat = b.toNat % 10 := by
  simp [Memory.read_writeBytes, bcdDigits]

/-- `LD B` with its three bytes in memory completes (42_index_memory.md rule R123). -/
theorem exec_ldB_of_fits {x : RegIdx} {s : State} (h : s.i.toNat + 2 < 4096) :
    exec (.ldB x) s = .next (s.advance.store s.base (bcdDigits (s.readV x))) :=
  withRange_of_fits (.inr h) _ _

/-- A bulk load that fits in memory completes (42_index_memory.md rule R125). -/
theorem exec_ldVxMem_of_fits {x : RegIdx} {s : State} (h : s.i.toNat + x.toNat < 4096) :
    exec (.ldVxMem x) s =
      .next (s.advance.loadRegs 0 (s.mem.readBytes s.base (bulkCount x))) :=
  withRange_of_fits (.inr (by rw [State.base, bulkCount]; omega)) _ _

/-- The count of a bulk transfer is at most the number of registers. -/
theorem bulkCount_le (x : RegIdx) : bulkCount x ≤ 16 := x.isLt

/-- After a bulk load up to `V[X]` from `a` up, `V[r]` is the byte at `a + r` for every register loaded. -/
theorem State.readV_bulkLoad (s : State) (m : Memory) (a : Nat) {x r : RegIdx}
    (h : r.toNat ≤ x.toNat) :
    (s.loadRegs 0 (m.readBytes a (bulkCount x))).readV r = Memory.read m (a + r.toNat) := by
  have hr : r.toNat < bulkCount x := Nat.lt_succ_of_le h
  rw [State.readV_loadRegs _ _ _ _ (by simpa using bulkCount_le x), if_pos (by simpa using hr),
    Nat.sub_zero, Memory.readBytes_getD _ _ _ _ hr]

/-- Settles O42: each writes its value to `I`, the operand or the address of the glyph. -/
theorem indexLoads : Obligations.IndexLoads := by
  unfold Obligations.IndexLoads
  refine fun x nnn s => ⟨?_, ?_⟩
  · obtain ⟨t, hx, hi, hrest⟩ := exec_setI (i := .ldI nnn) (s := s) rfl
    exact ⟨t, hx, by rw [hi, zext16_toNat_addr], hrest⟩
  · obtain ⟨t, hx, hi, hrest⟩ := exec_setI (i := .ldF x) (s := s) rfl
    exact ⟨t, hx, by rw [hi, glyphAddress_toNat], hrest⟩

/-- Settles O43: the word written to `I` is the sum, which wraps. -/
theorem addToIndexWraps : Obligations.AddToIndexWraps := by
  unfold Obligations.AddToIndexWraps
  intro x s
  obtain ⟨t, hx, hi, hrest⟩ := exec_setI (i := .addI x) (s := s) rfl
  exact ⟨t, hx, by rw [hi, BitVec.toNat_add, zext16_toNat_byte], hrest⟩

/-- Settles O44: the three bytes stored are the digits, and the range checked is the three of them. -/
theorem bcdStoresThreeDigits : Obligations.BcdStoresThreeDigits := by
  unfold Obligations.BcdStoresThreeDigits
  refine fun x s => ⟨fun hfit => ?_, fun hout hf => ?_⟩
  · obtain ⟨hhundreds, htens, hunits⟩ := Memory.read_bcdStore s.mem s.base (s.readV x)
    exact ⟨_, exec_ldB_of_fits hfit, hhundreds, htens, hunits, rfl,
      (keeps_advance _ s).store fun _ hc => hc⟩
  · exact exec_of_range_exceeds (len := 3) rfl (by decide) (Nat.lt_succ_of_le hout) hf

/-- Settles O45: the bytes stored are the first registers, and the range checked is as many bytes. -/
theorem bulkStoreCopiesRegisters : Obligations.BulkStoreCopiesRegisters := by
  unfold Obligations.BulkStoreCopiesRegisters
  refine fun x s => ⟨fun hfit => ?_, fun hout hf => ?_⟩
  · have hlen : (s.firstRegs (bulkCount x)).length = bulkCount x := by
      rw [State.firstRegs_length, Nat.min_eq_left (bulkCount_le x)]
    refine ⟨_, exec_ldMemVx_of_fits hfit, fun r hr => Memory.read_bulkStore _ s hr, rfl,
      (keeps_advance _ s).store fun c hc => ?_⟩
    rwa [hlen] at hc
  · exact exec_of_range_exceeds (len := bulkCount x) rfl (Nat.succ_ne_zero _)
      (Nat.lt_succ_of_le hout) hf

/-- Settles O46: the registers loaded are the first ones, with the bytes of the range that was checked. -/
theorem bulkLoadCopiesMemory : Obligations.BulkLoadCopiesMemory := by
  unfold Obligations.BulkLoadCopiesMemory
  refine fun x s => ⟨fun hfit => ?_, fun hout hf => ?_⟩
  · refine ⟨_, exec_ldVxMem_of_fits hfit, fun r hr => State.readV_bulkLoad _ _ _ hr, by simp,
      (keeps_advance _ s).loadRegs (by simpa using bulkCount_le x) fun r hr => ?_⟩
    rw [Memory.readBytes_length, bulkCount, Nat.zero_add] at hr
    exact Nat.le_of_lt_succ hr.2
  · exact exec_of_range_exceeds (len := bulkCount x) rfl (Nat.succ_ne_zero _)
      (Nat.lt_succ_of_le hout) hf

/-- Settles O48: a change of the registers keeps `I` and memory, so the load reads the range that the store
wrote, byte by byte. -/
theorem bulkLoadUndoesBulkStore : Obligations.BulkLoadUndoesBulkStore := by
  unfold Obligations.BulkLoadUndoesBulkStore
  intro x s hfit
  refine ⟨_, exec_ldMemVx_of_fits hfit, fun bs _ =>
    ⟨_, exec_ldVxMem_of_fits (by simpa using hfit), fun r hr => ?_, by simp⟩⟩
  rw [State.readV_bulkLoad _ _ _ hr]
  simpa [State.base] using Memory.read_bulkStore s.mem s hr

end Sys2Proof.Machine

namespace Sys2Proof.Machine

/-! ## Display (43_display.md)

`CLS` and `DRW` are the advance and a new display, for `DRW` with the collision in `VF`. The canvas of a drawing
is said here through `spriteBit`, free of the loops over rows and columns; the statements on one drawing and on
two follow from it. -/

/-- Replacing the display where it may change. -/
theorem Keeps.setDisp {w : Touched} {s t : State} (h : Keeps w s t) (hw : w.display) (d : Display) :
    Keeps w s (t.setDisp d) := by
  obtain ⟨hv, hm, hi, hstack, hdt, hst, -, hrest⟩ := h
  exact ⟨hv, hm, hi, hstack, hdt, hst, fun hn => absurd hw hn, hrest⟩

/-- Settles O49: the display written is the clear one. -/
theorem clsClearsEveryCell : Obligations.ClsClearsEveryCell :=
  fun s => ⟨_, rfl, Display.cell_clear, rfl, (keeps_advance _ s).setDisp trivial _⟩

/-- The cells that `DRW` visits are those for which the sprite has a 1 bit. -/
theorem mem_spriteCells_iff_spriteBit {x y : RegIdx} {n : Nibble} {s : State} {cy : Fin 32}
    {cx : Fin 64} :
    (cy, cx) ∈ spriteCells (s.readV x).toNat (s.readV y).toNat (s.mem.readBytes s.base n.toNat) ↔
      spriteBit s x y n cy cx := by
  rw [mem_spriteCells, Memory.readBytes_length]
  refine exists_congr fun row => exists_congr fun col => and_congr_right fun hrow => ?_
  rw [Memory.readBytes_getD _ _ _ _ hrow, State.base, eq_comm (a := cy.val), eq_comm (a := cx.val)]

/-- A sprite has at most 15 rows, so it is no taller than the display. -/
theorem spriteRows_length_le (n : Nibble) (s : State) :
    (s.mem.readBytes s.base n.toNat).length ≤ 32 := by
  have hn := n.isLt
  rw [Memory.readBytes_length]
  omega

/-- A cell under a 1 bit of the sprite is toggled. -/
theorem drwCanvas_cell_of_spriteBit {x y : RegIdx} {n : Nibble} {s : State} {cy : Fin 32}
    {cx : Fin 64} (h : spriteBit s x y n cy cx) :
    (drwCanvas x y n s).disp.cell cy cx = !(s.disp.cell cy cx) := by
  rw [drwCanvas, drawRows_cell _ _ _ _ (spriteRows_length_le n s),
    if_pos (mem_spriteCells_iff_spriteBit.mpr h)]

/-- A cell under no 1 bit of the sprite is as before. -/
theorem drwCanvas_cell_of_not_spriteBit {x y : RegIdx} {n : Nibble} {s : State} {cy : Fin 32}
    {cx : Fin 64} (h : ¬ spriteBit s x y n cy cx) :
    (drwCanvas x y n s).disp.cell cy cx = s.disp.cell cy cx := by
  rw [drwCanvas, drawRows_cell _ _ _ _ (spriteRows_length_le n s),
    if_neg (mt mem_spriteCells_iff_spriteBit.mp h)]

/-- A drawing collides exactly when the sprite has a 1 bit over a lit cell. -/
theorem drwCanvas_hit {x y : RegIdx} {n : Nibble} {s : State} :
    (drwCanvas x y n s).hit = true ↔ ∃ cy cx, spriteBit s x y n cy cx ∧ s.disp.cell cy cx = true := by
  rw [drwCanvas, drawRows_hit _ _ _ _ (spriteRows_length_le n s)]
  simp [mem_spriteCells_iff_spriteBit]

/-- `DRW` with its sprite in memory, or with no rows, leaves its canvas on the display and the collision in
`VF`, and changes nothing else. -/
theorem exec_drw_of_fits (x y : RegIdx) {n : Nibble} {s : State}
    (h : n.toNat = 0 ∨ s.i.toNat + n.toNat ≤ 4096) :
    ∃ t, exec (.drw x y n) s = .next t ∧ t.disp = (drwCanvas x y n s).disp ∧
      t.readV 15 = flagByte (drwCanvas x y n s).hit ∧ t.pc = s.pc + 2 ∧
      Keeps { regs := fun r => r = 15, display := True } s t :=
  ⟨_, withRange_of_fits h _ _, rfl, State.readV_writeV_self _ 15 _, rfl,
    ((keeps_advance _ s).setDisp trivial _).writeV rfl _⟩

/-- Settles O50: the drawing that fits is its canvas, and the range checked is the rows of the sprite. -/
theorem drwTogglesExactlyTheSprite : Obligations.DrwTogglesExactlyTheSprite := by
  unfold Obligations.DrwTogglesExactlyTheSprite
  refine fun x y n s => ⟨fun hfit => ?_, fun h0 hout hf => exec_of_range_exceeds rfl h0 hout hf⟩
  obtain ⟨t, hx, hdisp, hflag, hrest⟩ := exec_drw_of_fits x y hfit
  refine ⟨t, hx, fun cy cx => ?_, fun hhit => ?_, fun hhit => ?_, hrest⟩
  · rw [hdisp]
    exact ⟨drwCanvas_cell_of_spriteBit, drwCanvas_cell_of_not_spriteBit⟩
  · exact hflag.trans (if_pos (drwCanvas_hit.mpr hhit))
  · exact hflag.trans (if_neg (mt drwCanvas_hit.mp hhit))

/-- A change of `VF` and the display does not move the sprite, where neither operand is `VF`. -/
theorem spriteBit_congr {x y : RegIdx} {n : Nibble} {s t : State} {cy : Fin 32} {cx : Fin 64}
    (hx : x ≠ 15) (hy : y ≠ 15) (h : Keeps { regs := fun r => r = 15, display := True } s t) :
    spriteBit t x y n cy cx ↔ spriteBit s x y n cy cx := by
  obtain ⟨hregs, hmem, hi, -⟩ := h
  simp only [spriteBit, hregs x hx, hregs y hy, hi not_false, hmem _ not_false]

/-- Settles O51: the second drawing has the sprite of the first, so it toggles the same cells back, and it collides
where the first left a cell lit, which is where the cell was off before. -/
theorem drawingTwiceRestores : Obligations.DrawingTwiceRestores := by
  unfold Obligations.DrawingTwiceRestores
  intro x y n s hx hy hfit
  obtain ⟨t, hexec, hdisp, -, -, hkeeps⟩ := exec_drw_of_fits x y hfit
  have hbit : ∀ cy cx, spriteBit t x y n cy cx ↔ spriteBit s x y n cy cx :=
    fun _ _ => spriteBit_congr hx hy hkeeps
  obtain ⟨-, -, hi, -⟩ := hkeeps
  obtain ⟨u, hexec', hdisp', hflag', -⟩ := exec_drw_of_fits x y (s := t) (by rwa [hi not_false])
  refine ⟨t, u, hexec, hexec', Display.eq_of_cell fun cy cx => ?_, ?_⟩
  · rw [hdisp']
    by_cases h : spriteBit s x y n cy cx
    · rw [drwCanvas_cell_of_spriteBit ((hbit cy cx).mpr h), hdisp, drwCanvas_cell_of_spriteBit h,
        Bool.not_not]
    · rw [drwCanvas_cell_of_not_spriteBit (mt (hbit cy cx).mp h), hdisp,
        drwCanvas_cell_of_not_spriteBit h]
  · rw [hflag', flagByte_eq_one, drwCanvas_hit]
    refine exists_congr fun cy => exists_congr fun cx => ?_
    rw [hbit]
    refine and_congr_right fun h => ?_
    rw [hdisp, drwCanvas_cell_of_spriteBit h, Bool.not_eq_true']

end Sys2Proof.Machine

namespace Sys2Proof.Machine

/-! ## Keypad and timers (44_keypad_timers.md)

The skips on a key are skips on the latch that `V[X]` names, or the fault where no latch has the number. `LD VX,K`
is decided by the least pressed key. The timer writes are the advance and a write of the timer. -/

/-- With a latch for `V[X]`, `SKP` and `SKNP` are skips on it (44_keypad_timers.md rules R140 and R141). -/
theorem exec_keySkips_of_latch {x : RegIdx} {s : State} {down : Bool}
    (h : s.key? (s.readV x).toNat = some down) :
    exec (.skp x) s = .next (s.advance.skipIf down) ∧
      exec (.sknp x) s = .next (s.advance.skipIf (!down)) := by
  simp [exec, execSkp, execSknp, h]

/-- With no latch for `V[X]`, `SKP` and `SKNP` fault (44_keypad_timers.md rules R140 and R141). -/
theorem exec_keySkips_of_no_latch {x : RegIdx} {s : State} (h : s.key? (s.readV x).toNat = none) :
    exec (.skp x) s = faultStep (.keyIndexRange (s.readV x)) s ∧
      exec (.sknp x) s = faultStep (.keyIndexRange (s.readV x)) s := by
  simp [exec, execSkp, execSknp, h]

/-- `LD VX, K` with a key down writes the least index (44_keypad_timers.md rule R142). -/
theorem exec_ldVxK_of_pressed {x : RegIdx} {s : State} {k : Nat} (h : s.firstPressed = some k) :
    exec (.ldVxK x) s = .next (s.advance.writeV x (BitVec.ofNat 8 k)) := by
  simp [exec, execLdVxK, h]

/-- `LD VX, K` with no key down answers the state it began in: the rewind undoes the advance
(44_keypad_timers.md rule R142). -/
theorem exec_ldVxK_of_none_pressed {x : RegIdx} {s : State} (h : s.firstPressed = none) :
    exec (.ldVxK x) s = .next s := by
  simp [exec, execLdVxK, h]

/-- Writing `DT` where it may change. -/
theorem Keeps.setDT {w : Touched} {s t : State} (h : Keeps w s t) (hw : w.delay) (b : Byte) :
    Keeps w s (t.setDT b) := by
  obtain ⟨hv, hm, hi, hstack, -, hrest⟩ := h
  exact ⟨hv, hm, hi, hstack, fun hn => absurd hw hn, hrest⟩

/-- Writing `ST` where it may change. -/
theorem Keeps.setST {w : Touched} {s t : State} (h : Keeps w s t) (hw : w.sound) (b : Byte) :
    Keeps w s (t.setST b) := by
  obtain ⟨hv, hm, hi, hstack, hdt, -, hrest⟩ := h
  exact ⟨hv, hm, hi, hstack, hdt, fun hn => absurd hw hn, hrest⟩

/-- The sound is on exactly when `ST` is not 0. -/
theorem State.soundActive_iff (s : State) : s.soundActive = true ↔ s.st ≠ 0 := by
  simp [State.soundActive, Nat.pos_iff_ne_zero, BitVec.toNat_ne]

/-- Settles O53: the key that is down with none below it is the least pressed key, whose index fits in a byte; with
no key down there is no least one, and the step is the wait. -/
theorem waitForKeyTakesTheLeast : Obligations.WaitForKeyTakesTheLeast := by
  unfold Obligations.WaitForKeyTakesTheLeast
  refine fun x s => ⟨fun k hdown hbelow => ?_, fun hup => exec_ldVxK_of_none_pressed ?_⟩
  · have hleast : s.firstPressed = some k := State.firstPressed_eq_some.mpr ⟨hdown, hbelow⟩
    obtain ⟨t, hx, hv, hrest⟩ := exec_writeV (exec_ldVxK_of_pressed (x := x) hleast)
    have hk : k < 256 := (State.firstPressed_lt hleast).trans (by decide)
    exact ⟨t, hx, by rw [hv, BitVec.toNat_ofNat, Nat.mod_eq_of_lt hk], hrest⟩
  · refine State.firstPressed_eq_none.mpr fun k hdown => ?_
    obtain ⟨hk, -⟩ := Vector.getElem?_eq_some_iff.mp hdown
    simp [hup k hk] at hdown

/-- Settles O52: a number of at most 15 has a latch, and the two skip on it and on its negation; a greater one has
none, and the two take the fault. -/
theorem keySkips : Obligations.KeySkips := by
  unfold Obligations.KeySkips
  refine fun x s => ⟨fun hle => ?_, fun hgt hf => ?_⟩
  · have hlatch := State.key?_of_lt (s := s) (Nat.lt_succ_of_le hle)
    obtain ⟨hskp, hsknp⟩ := exec_keySkips_of_latch hlatch
    refine ⟨exec_skipIf hskp (by simp [hlatch]), ?_⟩
    rw [← ite_not]
    exact exec_skipIf hsknp (by simp [hlatch])
  · rw [State.faulted, ← faultStep_of_none hf]
    exact exec_keySkips_of_no_latch (State.key?_eq_none.mpr hgt)

/-- Settles O54: the timer written holds `V[X]`, and the sound follows `ST`. -/
theorem timerWrites : Obligations.TimerWrites :=
  fun x s => ⟨⟨_, rfl, rfl, rfl, (keeps_advance _ s).setDT trivial _⟩,
    ⟨_, rfl, rfl, (s.advance.setST (s.readV x)).soundActive_iff, rfl,
      (keeps_advance _ s).setST trivial _⟩⟩

end Sys2Proof.Machine


namespace Sys2Proof.Machine

/-! ## The step and the host operations (45_host_operations.md)

`STEP` in its four cases, one lemma a case; the word placed for the next step; which instructions change which
piece of state, and that only `RND` reads the draw counter; and the operations and observers beside `STEP`. -/

/-! ### The step -/

/-- `STEP` is inhibited in the fault state. -/
theorem step_of_fault {s : State} (h : s.fault ≠ none) : step s = .next s := by
  obtain ⟨f, hf⟩ := Option.ne_none_iff_exists'.mp h
  rw [step, stepCycle, hf]

/-- A fetch that leaves memory faults (20_memory.md rule R41). -/
theorem step_of_fetch_exceeds {s : State} (hf : s.fault = none) (hpc : 4096 < s.pc.toNat + 2) :
    step s = .next (s.faulted (.memoryBounds (max s.pc.toNat 4096))) := by
  rw [step, stepCycle, hf, State.faulted, ← faultStep_of_none hf]
  exact withRange_of_exceeds (by decide) hpc s _

/-- A fetched word that decodes to no instruction faults with that word (60_exceptions.md rule R172). -/
theorem step_of_decode_none {s : State} (hf : s.fault = none) (hfit : s.pc.toNat + 2 ≤ 4096)
    (hd : decode? s.opcode = none) : step s = .next (s.faulted (.decodeFailure s.opcode)) := by
  have hbody : decodeAndExec s = faultStep (.decodeFailure s.opcode) s := by
    rw [decodeAndExec, decode, hd]
  rw [step, stepCycle, hf, State.faulted, ← faultStep_of_none hf, ← hbody]
  exact withRange_of_fits (.inr hfit) s _

/-- Settles O5: the fault register, the bounds of the fetch and the decoder's verdict select the case. -/
theorem stepRunsTheDecodedInstruction : Obligations.StepRunsTheDecodedInstruction := by
  unfold Obligations.StepRunsTheDecodedInstruction
  refine fun s => ⟨step_of_fault, fun hf hpc => step_of_fetch_exceeds hf (Nat.lt_succ_of_le hpc),
    fun hf hpc op hop => ?_⟩
  obtain rfl : op = s.opcode := hop
  refine ⟨fun i hd => step_of_decode hf hpc hd, fun hno => step_of_decode_none hf hpc ?_⟩
  rcases decode_cases s.opcode with ⟨i, -, hd⟩ | ⟨hd, -⟩
  · exact absurd hd (hno i)
  · exact hd

/-- Settles O7: an instruction faults or completes, and a step is one of these, a fault of the fetch or of the
decoder, or nothing; each is a next state. -/
theorem everyStepAnswersANextState : Obligations.EveryStepAnswersANextState :=
  ⟨exec_answers, step_answers⟩

/-! ### A word placed for the next step (log entry 7) -/

/-- The opcode at `PC` after the bytes of a word are stored there (20_memory.md rule R40). -/
theorem opcode_store_wordBytes (s : State) (op : Word) :
    (s.store s.pc.toNat (wordBytes op)).opcode = op := by
  simp [State.opcode, Memory.read_writeBytes, wordBytes, opcodeOf_wordBytes]

/-- A placed word is stored at `PC`, where there is room for it, in a state with no fault. -/
theorem placeWord_eq_store (s : State) (op : Word) :
    ∃ u : State, u.fault = none ∧ u.pc.toNat + 2 ≤ 4096 ∧
      s.placeWord op = u.store u.pc.toNat (wordBytes op) := by
  unfold State.placeWord
  cases h : rangeFault s.pc.toNat Config.insnWidth with
  | none =>
    have hfit := rangeFault_eq_none.mp h
    exact ⟨{ s with fault := none }, rfl, hfit.resolve_left (by decide), by simp [h]⟩
  | some a =>
    have hbase : (BitVec.ofNat Config.pcWidth Config.base).toNat + 2 ≤ 4096 := by decide
    exact ⟨State.setPC { s with fault := none } _, rfl, hbase, by simp [h]⟩

/-- What the decoder reads from the two bytes of a word is what the word decodes to. -/
theorem decode_of_decodeTableWord {nbits w : Nat} {i : Instr}
    (h : decodeTableWord nbits w = some i) : decode (tableWord nbits w) = .ok i := by
  rw [decodeTableWord, wordBytes, decodeBytes, opcodeOf_wordBytes] at h
  cases hd : decode (tableWord nbits w) with
  | ok j => simpa [hd] using h
  | error e => simp [hd] at h

/-- Settles O6: the placed word is the opcode at `PC`, in a state that fetches. -/
theorem placedWordRunsNext : Obligations.PlacedWordRunsNext := by
  unfold Obligations.PlacedWordRunsNext
  intro s w i hw
  obtain ⟨u, hf, hpc, hu⟩ := placeWord_eq_store s (tableWord 16 w)
  rw [State.withFetchWord, hu]
  refine step_of_decode hf hpc ?_
  rw [opcode_store_wordBytes]
  exact decode_of_decodeTableWord hw

/-! ### The writers of each piece of state -/

theorem touched_delay {i : Instr} {s : State} (h : (touched i s).delay) : ∃ x, i = .ldDTVx x := by
  cases i with
  | ldDTVx x => exact ⟨x, rfl⟩
  | _ => exact False.elim h

theorem touched_sound {i : Instr} {s : State} (h : (touched i s).sound) : ∃ x, i = .ldSTVx x := by
  cases i with
  | ldSTVx x => exact ⟨x, rfl⟩
  | _ => exact False.elim h

theorem touched_index {i : Instr} {s : State} (h : (touched i s).index) :
    (∃ nnn, i = .ldI nnn) ∨ (∃ x, i = .addI x) ∨ ∃ x, i = .ldF x := by
  cases i with
  | ldI nnn => exact .inl ⟨nnn, rfl⟩
  | addI x => exact .inr (.inl ⟨x, rfl⟩)
  | ldF x => exact .inr (.inr ⟨x, rfl⟩)
  | _ => exact False.elim h

theorem touched_display {i : Instr} {s : State} (h : (touched i s).display) :
    i = .cls ∨ ∃ x y n, i = .drw x y n := by
  cases i with
  | cls => exact .inl rfl
  | drw x y n => exact .inr ⟨x, y, n, rfl⟩
  | _ => exact False.elim h

theorem touched_stack {i : Instr} {s : State} (h : (touched i s).stack) :
    i = .ret ∨ ∃ nnn, i = .call nnn := by
  cases i with
  | ret => exact .inl rfl
  | call nnn => exact .inr ⟨nnn, rfl⟩
  | _ => exact False.elim h

theorem touched_draws {i : Instr} {s : State} (h : (touched i s).draws) :
    ∃ x nn, i = .rnd x nn := by
  cases i with
  | rnd x nn => exact ⟨x, nn, rfl⟩
  | _ => exact False.elim h

/-- An instruction that stores bytes is `LD B` or `LD [I],VX`. -/
theorem stored_ne_nil {i : Instr} {s : State} (h : stored i s ≠ []) :
    (∃ x, i = .ldB x) ∨ ∃ x, i = .ldMemVx x := by
  cases i with
  | ldB x => exact .inl ⟨x, rfl⟩
  | ldMemVx x => exact .inr ⟨x, rfl⟩
  | _ => exact absurd rfl h

/-- `RET` keeps the entries of the stack, the dead one too (log entry 8). -/
theorem exec_ret_stack {s t : State} (h : exec .ret s = .next t) : t.stack = s.stack := by
  rcases Nat.eq_zero_or_pos s.sp.val with hsp | hsp
  · obtain rfl := Host.Outcome.next.inj ((exec_ret_of_empty hsp).symm.trans h)
    exact State.raise_stack s _ _
  · obtain rfl := Host.Outcome.next.inj ((exec_ret hsp).symm.trans h)
    rfl

/-- Settles O9: a fault changes none of these pieces, and an instruction that completes changes those that
`touched` names and the memory it stores to. -/
theorem eachStateHasOnlyItsWriters : Obligations.EachStateHasOnlyItsWriters := by
  unfold Obligations.EachStateHasOnlyItsWriters
  intro i s t hx
  rcases exec_next_cases hx with ⟨c, -, rfl⟩ | ⟨-, hc⟩
  · simp
  obtain ⟨-, -, hi, hstack, hdt, hst, hdisp, -, hdraws, hkey⟩ := hc.keeps
  refine ⟨hkey, fun h => touched_delay (not_imp_comm.mp hdt h),
    fun h => touched_sound (not_imp_comm.mp hst h), fun h => touched_index (not_imp_comm.mp hi h),
    fun h => touched_display (not_imp_comm.mp hdisp h), fun h => ?_, fun h => ?_, fun h => ?_,
    fun h => touched_draws (not_imp_comm.mp hdraws h)⟩
  · refine stored_ne_nil (s := s) fun hnil => h ?_
    rw [hc.mem, hnil, Memory.writeBytes]
  · rcases touched_stack (not_imp_comm.mp hstack fun hs => h hs.1) with rfl | hcall
    · exact absurd (exec_ret_stack hx) h
    · exact hcall
  · exact touched_stack (not_imp_comm.mp hstack fun hs => h hs.2)

/-! ### The draw counter

The draw counter goes through every operation but `State.drawn` and `State.tookDraw` untouched and unread. An
instruction but `RND` is a chain of those operations, so it commutes with setting the counter. -/

/-- The state with another draw counter. -/
def State.withDraws (s : State) (n : Nat) : State := { s with draws := n }

/-- The outcome with another draw counter in its next state. -/
def outWithDraws (n : Nat) : Out State → Out State
  | .next t => .next (t.withDraws n)
  | .fault r => .fault r
  | .refused r => .refused r

theorem skipIf_withDraws (s : State) (n : Nat) (c : Bool) :
    (s.withDraws n).skipIf c = (s.skipIf c).withDraws n := by
  cases c <;> rfl

theorem loadRegs_withDraws (s : State) (n k : Nat) (bs : List Byte) :
    (s.withDraws n).loadRegs k bs = (s.loadRegs k bs).withDraws n := by
  induction bs generalizing s k with
  | nil => rfl
  | cons b rest ih => exact ih (s.writeV _ b) (k + 1)

theorem faultStep_withDraws (c : FaultCause) (s : State) (n : Nat) :
    faultStep c (s.withDraws n) = outWithDraws n (faultStep c s) := by
  cases h : s.fault with
  | none => rw [faultStep_of_none h, faultStep_of_none (s := s.withDraws n) h]; rfl
  | some f => rw [faultStep_of_some h, faultStep_of_some (s := s.withDraws n) h]; rfl

theorem withRange_withDraws (start len : Nat) (s : State) (n : Nat) (body : Out State) :
    withRange start len (s.withDraws n) (outWithDraws n body) =
      outWithDraws n (withRange start len s body) := by
  unfold withRange
  split
  · rfl
  · exact faultStep_withDraws _ s n

theorem exec_withRange_withDraws {i : Instr} {s : State} {n start len : Nat} {body body' : Out State}
    (h : exec i s = withRange start len s body)
    (h' : exec i (s.withDraws n) = withRange start len (s.withDraws n) body')
    (hb : body' = outWithDraws n body) : exec i (s.withDraws n) = outWithDraws n (exec i s) := by
  rw [h, h', hb, withRange_withDraws]

theorem exec_skipIf_withDraws {i : Instr} {s : State} {n : Nat} {c : Bool}
    (h : exec i s = .next (s.advance.skipIf c))
    (h' : exec i (s.withDraws n) = .next ((s.withDraws n).advance.skipIf c)) :
    exec i (s.withDraws n) = outWithDraws n (exec i s) := by
  rw [h, h']
  exact congrArg Host.Outcome.next (skipIf_withDraws s.advance n c)

theorem exec_faultStep_withDraws {i : Instr} {s : State} {n : Nat} {c : FaultCause}
    (h : exec i s = faultStep c s) (h' : exec i (s.withDraws n) = faultStep c (s.withDraws n)) :
    exec i (s.withDraws n) = outWithDraws n (exec i s) := by
  rw [h, h', faultStep_withDraws]

theorem exec_keySkips_withDraws (x : RegIdx) (s : State) (n : Nat) :
    exec (.skp x) (s.withDraws n) = outWithDraws n (exec (.skp x) s) ∧
      exec (.sknp x) (s.withDraws n) = outWithDraws n (exec (.sknp x) s) := by
  cases h : s.key? (s.readV x).toNat with
  | some down =>
    obtain ⟨hskp, hsknp⟩ := exec_keySkips_of_latch h
    obtain ⟨hskp', hsknp'⟩ := exec_keySkips_of_latch (s := s.withDraws n) h
    exact ⟨exec_skipIf_withDraws hskp hskp', exec_skipIf_withDraws hsknp hsknp'⟩
  | none =>
    obtain ⟨hskp, hsknp⟩ := exec_keySkips_of_no_latch h
    obtain ⟨hskp', hsknp'⟩ := exec_keySkips_of_no_latch (s := s.withDraws n) h
    exact ⟨exec_faultStep_withDraws hskp hskp', exec_faultStep_withDraws hsknp hsknp'⟩

/-- An instruction that is not `RND` commutes with setting the draw counter. -/
theorem exec_withDraws {i : Instr} (hi : ∀ x nn, i ≠ .rnd x nn) (s : State) (n : Nat) :
    exec i (s.withDraws n) = outWithDraws n (exec i s) := by
  cases i with
  | rnd x nn => exact absurd rfl (hi x nn)
  | nop | cls | jp nnn | jpV0 nnn | ldImm x nn | addImm x nn | ldReg x y | or x y | and x y | xor x y
  | addReg x y | sub x y | shr x y | subn x y | shl x y | ldI nnn | ldVxDT x | ldDTVx x | ldSTVx x
  | addI x | ldF x => rfl
  | seImm x nn | sneImm x nn | seReg x y | sneReg x y => exact exec_skipIf_withDraws rfl rfl
  | skp x => exact (exec_keySkips_withDraws x s n).1
  | sknp x => exact (exec_keySkips_withDraws x s n).2
  | ret =>
    rcases Nat.eq_zero_or_pos s.sp.val with h | h
    · exact exec_faultStep_withDraws (exec_ret_of_empty h) (exec_ret_of_empty h)
    · rw [exec_ret h, exec_ret (s := s.withDraws n) h]
      rfl
  | call nnn =>
    rcases Nat.lt_or_eq_of_le s.sp_le with h | h
    · rw [exec_call h, exec_call (s := s.withDraws n) h]
      rfl
    · exact exec_faultStep_withDraws (exec_call_of_full h) (exec_call_of_full h)
  | ldVxK x =>
    cases h : s.firstPressed with
    | none => rw [exec_ldVxK_of_none_pressed h, exec_ldVxK_of_none_pressed (s := s.withDraws n) h]; rfl
    | some k => rw [exec_ldVxK_of_pressed h, exec_ldVxK_of_pressed (s := s.withDraws n) h]; rfl
  | drw x y m | ldB x | ldMemVx x => exact exec_withRange_withDraws rfl rfl rfl
  | ldVxMem x =>
    exact exec_withRange_withDraws rfl rfl
      (congrArg Host.Outcome.next (loadRegs_withDraws s.advance n 0 _))

/-- Settles O8: such an instruction carries any counter through, and it keeps its own, since it is no writer of
it. -/
theorem onlyRndDependsOnTheDraw : Obligations.OnlyRndDependsOnTheDraw := by
  unfold Obligations.OnlyRndDependsOnTheDraw
  intro i s n hi
  obtain ⟨t, hx⟩ := exec_answers i s
  refine ⟨t, hx, (exec_withDraws hi s n).trans (congrArg (outWithDraws n) hx), ?_⟩
  obtain ⟨-, -, -, -, -, -, -, -, hdraws⟩ := eachStateHasOnlyItsWriters i s t hx
  by_contra hne
  obtain ⟨x, nn, rfl⟩ := hdraws hne
  exact hi x nn rfl

/-! ### `LOAD` -/

/-- A state keeps everything of itself. -/
theorem Keeps.refl (w : Touched) (s : State) : Keeps w s s := by
  simp [Keeps]

/-- An image of at most 3584 bytes is stored from 0x200 up. -/
theorem hostLoad_of_fits {image : List Byte} (h : image.length ≤ 3584) (s : State) :
    hostLoad image s = s.store 0x200 image := by
  have hfit : rangeFault Config.base image.length = none :=
    rangeFault_eq_none.mpr (.inr (Nat.add_le_add_left h 0x200))
  rw [hostLoad, hfit, Config.base]

/-- A longer image faults at the first address past the end of memory, `at` absent (decision D21). -/
theorem hostLoad_of_exceeds {image : List Byte} (h : 3584 < image.length) (s : State) :
    hostLoad image s = s.raise (.memoryBounds 4096) none := by
  have hout : rangeFault Config.base image.length = some 4096 :=
    rangeFault_eq_some.mpr ⟨Nat.ne_zero_of_lt h, Nat.add_lt_add_left h 0x200, rfl⟩
  rw [hostLoad, hout]

/-- Settles O22: an image that fits is one store, and a longer one only takes the fault. -/
theorem loadPlacesTheImage : Obligations.LoadPlacesTheImage := by
  unfold Obligations.LoadPlacesTheImage
  refine fun image s => ⟨fun hfit => ?_, fun hout hf => ?_, fun hout hf => ?_⟩
  · rw [hostLoad_of_fits hfit]
    refine ⟨(Keeps.refl _ s).store fun _ hc => hc, rfl, fun k hk => ?_⟩
    have hin : 0x200 ≤ 0x200 + k ∧ 0x200 + k < 0x200 + image.length := by omega
    rw [State.store_mem, Memory.read_writeBytes, if_pos hin, Nat.add_sub_cancel_left]
  · rw [hostLoad_of_exceeds hout, State.raise_of_none hf]
  · obtain ⟨f, hf'⟩ := Option.ne_none_iff_exists'.mp hf
    rw [hostLoad_of_exceeds hout, State.raise_of_some hf']

/-! ### `SETKEY` -/

/-- `setKey` changes nothing but the latches. -/
theorem setKey_with_key (s : State) (k : Nat) (down : Bool) :
    { s.setKey k down with key := s.key } = s := by
  unfold State.setKey
  split <;> rfl

/-- No latch has an index above 15. -/
theorem setKey_of_gt {k : Nat} (h : 15 < k) (s : State) (down : Bool) : s.setKey k down = s :=
  dif_neg (Nat.not_lt_of_le h)

/-- A step keeps the latches: nothing, a fault or an instruction, and none of them writes one. -/
theorem step_key {s t : State} (h : step s = .next t) : t.key = s.key := by
  rcases step_next_cases h with rfl | ⟨c, rfl⟩ | ⟨i, -, -, hx⟩
  · rfl
  · exact State.raise_key s c _
  · obtain ⟨hkey, -⟩ := eachStateHasOnlyItsWriters i s t hx
    exact hkey

/-- `LOAD` keeps the latches. -/
theorem hostLoad_key (image : List Byte) (s : State) : (hostLoad image s).key = s.key := by
  unfold hostLoad
  split
  · rfl
  · exact State.raise_key s _ _

/-- Settles O26: a latch after `SETKEY` is read off `State.key?_setKey`; of the other operations `INIT` and
`RESET` may write a latch, and each that is left keeps them all. -/
theorem setKeyWritesOneLatch : Obligations.SetKeyWritesOneLatch := by
  unfold Obligations.SetKeyWritesOneLatch
  refine fun k pressed s => ⟨fun hk => ?_, fun j hj => ?_, setKey_with_key s k pressed,
    fun hk => setKey_of_gt hk s pressed, fun op t hop hne => ?_⟩
  · rw [hostSetKey, State.key?_setKey, if_pos ⟨rfl, Nat.lt_succ_of_le hk⟩]
  · rw [hostSetKey, State.key?_setKey, if_neg fun h => hj h.1]
  · cases op with
    | init => exact .inl rfl
    | reset => exact .inr (.inl rfl)
    | setKey j b => exact .inr (.inr ⟨j, b, rfl⟩)
    | step => exact absurd (step_key hop) hne
    | load image =>
      obtain rfl := Host.Outcome.next.inj hop
      exact absurd (hostLoad_key image s) hne
    | tick =>
      obtain rfl := Host.Outcome.next.inj hop
      exact absurd rfl hne

/-! ### The observers -/

/-- `DISPLAY` is row-major. -/
theorem display_getElem? (s : State) (y : Fin 32) (x : Fin 64) :
    s.display[64 * y.val + x.val]? = some (s.disp.cell y x) := by
  have hlt : 64 * y.val + x.val < 32 * 64 := by omega
  have hrow : (64 * y.val + x.val) / 64 = y.val := by omega
  have hcol : (64 * y.val + x.val) % 64 = x.val := by omega
  rw [State.display, Vector.getElem?_toList, Vector.getElem?_eq_getElem hlt, Vector.getElem_flatten]
  simp [Display.cell, hrow, hcol]

/-- Settles O27: the rows of the bitmap one after the other, and the comparison of `ST` with 0. -/
theorem observersShowTheState : Obligations.ObserversShowTheState := by
  unfold Obligations.ObserversShowTheState
  intro s
  have hlen : s.display.length = 32 * 64 := Vector.length_toList
  exact ⟨hlen, display_getElem? s, by simp [State.soundActive], by decide⟩

end Sys2Proof.Machine

namespace Sys2Proof.Machine

/-! ## Faults and the timers' tick (60_exceptions.md)

An instruction takes the fault of the table or keeps `FAULT`, and a fault taken where there was none is one record
written. Once set, `FAULT` is kept by every operation but `INIT` and `RESET`, hence by every schedule without
them. A tick counts each timer down by one, floored at 0. -/

/-! ### Taking a fault -/

/-- Settles O13: an instruction that faults records the entry of the table at its own address, and one that
completes keeps `FAULT` empty where the table has no entry. -/
theorem faultsAreExactlyAsTabled : Obligations.FaultsAreExactlyAsTabled := by
  unfold Obligations.FaultsAreExactlyAsTabled
  intro i s hs
  rcases exec_faults_or_completes i s with ⟨c, hc, hx⟩ | ⟨hnone, t, hx, ht⟩
  · exact ⟨_, hx, by simp [hc, hs]⟩
  · exact ⟨t, hx, by simp [hnone, ht.fault, hs]⟩

/-- A fault taken where there is none writes the record and nothing else (60_exceptions.md rule R171). -/
theorem State.raise_eq_faulted {s : State} (h : s.fault = none) (c : FaultCause) :
    s.raise c (some s.pc) = s.faulted c :=
  State.raise_of_none h c _

/-- Settles O14: of what a step can do only a fault, of the fetch, of the decoder or of the instruction, sets
`FAULT`. -/
theorem faultsArePrecise : Obligations.FaultsArePrecise := by
  unfold Obligations.FaultsArePrecise
  intro s t hs h ht
  rcases step_next_cases h with rfl | ⟨c, rfl⟩ | ⟨i, -, -, hx⟩
  · exact absurd hs ht
  · exact ⟨c, State.raise_eq_faulted hs c⟩
  · rcases exec_next_cases hx with ⟨c, -, rfl⟩ | ⟨-, hc⟩
    · exact ⟨c, State.raise_eq_faulted hs c⟩
    · exact absurd (hc.fault.trans hs) ht

/-! ### `TICK` -/

/-- Counting a byte down by one floors at 0. -/
theorem countDown_toNat (b : Byte) : (if b = 0 then b else b - 1).toNat = b.toNat - 1 := by
  split
  next h => rw [h]; rfl
  next h =>
    have hpos : b.toNat ≠ 0 := fun h0 => h (BitVec.eq_of_toNat_eq h0)
    exact BitVec.toNat_sub_of_le (BitVec.le_def.mpr (Nat.pos_of_ne_zero hpos))

theorem hostTick_dt (s : State) : (hostTick s).dt.toNat = s.dt.toNat - 1 := countDown_toNat s.dt

theorem hostTick_st (s : State) : (hostTick s).st.toNat = s.st.toNat - 1 := countDown_toNat s.st

/-- A tick writes the two timers and nothing else (60_exceptions.md rule R185). -/
theorem keeps_hostTick (s : State) : Keeps { delay := True, sound := True } s (hostTick s) :=
  ((Keeps.refl _ s).setDT trivial _).setST trivial _

/-- Settles O24: the two writes of the tick, each a byte counted down. -/
theorem tickDecrementsBothTimers : Obligations.TickDecrementsBothTimers :=
  fun s => ⟨hostTick_dt s, hostTick_st s, rfl, keeps_hostTick s⟩

/-- A schedule runs its first operation and then the rest (45_host_operations.md rule R151). -/
theorem runOps_cons {op : HostOp} {ops : List HostOp} {s t : State} (h : applyOp op s = .next t) :
    runOps (op :: ops) s = runOps ops t := by
  rw [runOps, h]

/-- Settles O25, by induction on the number of ticks: the first lowers each timer by one, and the floor at 0 is
that of subtraction on naturals. -/
theorem ticksCountDownToZero : Obligations.TicksCountDownToZero := by
  unfold Obligations.TicksCountDownToZero
  intro n
  induction n with
  | zero => exact fun s => ⟨s, rfl, rfl, rfl, rfl, Keeps.refl _ s⟩
  | succ n ih =>
    intro s
    obtain ⟨t, hrun, hdt, hst, hpc, hkeeps⟩ := ih (hostTick s)
    refine ⟨t, (runOps_cons rfl).trans hrun, ?_, ?_, hpc, (keeps_hostTick s).trans hkeeps⟩
    · rw [hdt, hostTick_dt, Nat.sub_sub, Nat.add_comm]
    · rw [hst, hostTick_st, Nat.sub_sub, Nat.add_comm]

/-! ### The fault state -/

/-- `LOAD` keeps a fault: it stores, or its own fault is not the first (60_exceptions.md rule R176). -/
theorem hostLoad_fault {s : State} (h : s.fault ≠ none) (image : List Byte) :
    (hostLoad image s).fault = s.fault := by
  obtain ⟨f, hf⟩ := Option.ne_none_iff_exists'.mp h
  unfold hostLoad
  split
  · rfl
  · rw [State.raise_of_some hf]

/-- An operation other than `INIT` and `RESET` keeps a fault (60_exceptions.md rules R176 and R180). -/
theorem applyOp_keeps_fault {op : HostOp} {s t : State} (hs : s.fault ≠ none) (hinit : op ≠ .init)
    (hreset : op ≠ .reset) (h : applyOp op s = .next t) : t.fault = s.fault := by
  cases op with
  | init => exact absurd rfl hinit
  | reset => exact absurd rfl hreset
  | step =>
    obtain rfl := Host.Outcome.next.inj ((step_of_fault hs).symm.trans h)
    rfl
  | load image =>
    obtain rfl := Host.Outcome.next.inj h
    exact hostLoad_fault hs image
  | tick =>
    obtain rfl := Host.Outcome.next.inj h
    rfl
  | setKey k pressed =>
    obtain rfl := Host.Outcome.next.inj h
    exact State.setKey_fault s k pressed

/-- A schedule without `INIT` and `RESET` keeps a fault. -/
theorem runOps_keeps_fault {ops : List HostOp} {s : State} (hs : s.fault ≠ none)
    (hinit : HostOp.init ∉ ops) (hreset : HostOp.reset ∉ ops) :
    ∃ t, runOps ops s = .next t ∧ t.fault = s.fault := by
  induction ops generalizing s with
  | nil => exact ⟨s, rfl, rfl⟩
  | cons op rest ih =>
    obtain ⟨hop, hrest⟩ := List.ne_and_not_mem_of_not_mem_cons hinit
    obtain ⟨hop', hrest'⟩ := List.ne_and_not_mem_of_not_mem_cons hreset
    obtain ⟨u, hu⟩ := applyOp_answers op s
    have hfault : u.fault = s.fault := applyOp_keeps_fault hs hop.symm hop'.symm hu
    obtain ⟨t, ht, htu⟩ := ih (hfault ▸ hs) hrest hrest'
    exact ⟨t, (runOps_cons hu).trans ht, htu.trans hfault⟩

/-- Settles O15: each operation of such a schedule keeps the fault; `STEP` is inhibited, `TICK` is not, and `INIT`
and `RESET` write the reset state, which has no fault. -/
theorem faultIsStickyUntilReset : Obligations.FaultIsStickyUntilReset := by
  unfold Obligations.FaultIsStickyUntilReset
  refine ⟨fun ops s hs hinit hreset => ?_, fun s => step_of_fault,
    fun s _ => ⟨rfl, hostTick_dt s, hostTick_st s⟩, fun s => ⟨rfl, rfl, rfl⟩⟩
  obtain ⟨t, hrun, hfault⟩ := runOps_keeps_fault hs hinit hreset
  exact ⟨t, hrun, hfault, hfault⟩

end Sys2Proof.Machine

namespace Sys2Proof.Machine

/-! ### `INIT` and `RESET` -/

/-- Settles O21: `RESET` is `INIT`, which takes nothing but the draw counter from the state before it. -/
theorem resetIsHistoryFree : Obligations.ResetIsHistoryFree := by
  unfold Obligations.ResetIsHistoryFree
  exact fun s u => ⟨rfl, rfl, rfl⟩

/-- A store from above a range leaves the bytes of the range (20_memory.md rule R48). -/
theorem Memory.readBytes_writeBytes_of_le (m : Memory) {a n b : Nat} (h : a + n ≤ b) (bs : List Byte) :
    Memory.readBytes (m.writeBytes b bs) a n = Memory.readBytes m a n := by
  refine Memory.readBytes_congr _ _ a n fun k hk => ?_
  have hbelow : ¬(b ≤ a + k ∧ a + k < b + bs.length) := by omega
  rw [Memory.read_writeBytes, if_neg hbelow]

/-- After `INIT` the glyph table stands at the start of memory (10_state.md rule R33). -/
theorem hostInit_glyphs (s : State) : Memory.readBytes (hostInit s).mem 0 80 = Config.glyphTable :=
  glyphTableBytes

/-- Settles O23: an image that fits is stored from 0x200 up, above the glyph table, and a store writes neither
`PC` nor `FAULT`, which are as `INIT` left them. -/
theorem initThenLoadKeepsGlyphs : Obligations.InitThenLoadKeepsGlyphs := by
  unfold Obligations.InitThenLoadKeepsGlyphs
  intro image s hfit
  have hrun : runOps [.init, .load image] s = .next ((hostInit s).store 0x200 image) := by
    rw [← hostLoad_of_fits hfit]
    rfl
  have hglyphs : Memory.readBytes ((hostInit s).store 0x200 image).mem 0 80 = Config.glyphTable := by
    rw [State.store_mem, Memory.readBytes_writeBytes_of_le _ (by decide), hostInit_glyphs]
  exact ⟨_, hrun, rfl, rfl, rfl, hglyphs, hostInit_glyphs s⟩

end Sys2Proof.Machine
